-- ==== Sys2Proof/Word.lean ====
section
/-! DEFINITION. The words of the FCLB: the byte, the 64-bit register word, and the sequences of bytes and bits
that the rules speak of (spec/00_scope.md R7, R9, R10). -/

namespace Sys2Proof

/-- R10: a Byte is a natural in 0..255; one location of data memory, one pixel element. -/
abbrev Byte := BitVec 8

/-- R7: REG_W = ADDR_W = 64. Every register, every address and every command word. -/
abbrev Word := BitVec 64

/-- R10: a finite sequence of bytes. -/
abbrev Bytes := List Byte

/-- R10: a finite sequence of bits (`true` is 1). -/
abbrev Bits := List Bool

end Sys2Proof
end

