-- ==== Sys2Proof/Machine/Utf8.lean ====
section
/-! DEFINITION. UTF-8 validity by the table of well-formed byte sequences (spec/40_frame_codec.md R122). The table
is the value the spec gives the parameter utf8_valid of spec/93_implementation_defined.md I1; Config.lean takes it
from here. -/

namespace Sys2Proof.Machine

/-- R122: each row is the allowed range (first, last) of each byte of one sequence. -/
def utf8Rows : List (List (Nat × Nat)) :=
  [ [(0x00, 0x7F)],
    [(0xC2, 0xDF), (0x80, 0xBF)],
    [(0xE0, 0xE0), (0xA0, 0xBF), (0x80, 0xBF)],
    [(0xE1, 0xEC), (0x80, 0xBF), (0x80, 0xBF)],
    [(0xED, 0xED), (0x80, 0x9F), (0x80, 0xBF)],
    [(0xEE, 0xEF), (0x80, 0xBF), (0x80, 0xBF)],
    [(0xF0, 0xF0), (0x90, 0xBF), (0x80, 0xBF), (0x80, 0xBF)],
    [(0xF1, 0xF3), (0x80, 0xBF), (0x80, 0xBF), (0x80, 0xBF)],
    [(0xF4, 0xF4), (0x80, 0x8F), (0x80, 0xBF), (0x80, 0xBF)] ]

/-- A byte lies in one column's range. -/
def inColumn (col : Nat × Nat) (b : Byte) : Bool :=
  decide (col.1 ≤ b.toNat ∧ b.toNat ≤ col.2)

/-- A whole sequence matches a row, byte for byte (R122). -/
def matchesRow : List (Nat × Nat) → Bytes → Bool
  | [], [] => true
  | col :: cols, b :: bs => inColumn col b && matchesRow cols bs
  | _, _ => false

/-- What is left of `m` after one sequence of this row is taken off its front, if one stands there. -/
def stripRow : List (Nat × Nat) → Bytes → Option Bytes
  | [], m => some m
  | _ :: _, [] => none
  | col :: cols, b :: bs => if inColumn col b then stripRow cols bs else none

/-- Take sequences off the front until nothing is left; `fuel` bounds how many. -/
def utf8Scan : Nat → Bytes → Bool
  | _, [] => true
  | 0, _ :: _ => false
  | fuel + 1, b :: bs =>
    match utf8Rows.findSome? (fun row => stripRow row (b :: bs)) with
    | some rest => utf8Scan fuel rest
    | none => false

/-- R122: `m` splits, from the start and with nothing left over, into sequences of the table. Every row takes at
least one byte, so `m.length` sequences are enough. -/
def utf8TableValid (m : Bytes) : Bool := utf8Scan m.length m

end Sys2Proof.Machine
end

