-- ==== Sys2Proof/Config.lean ====
section
/-! DEFINITION. What the spec leaves to the implementation or the platform (spec/00_scope.md R8,
spec/93_implementation_defined.md), and the free values. REG_BASE is no constant here: no rule reads it and the
model addresses registers by offset, as R8 says (assumption log 17). -/

namespace Sys2Proof

/-- The free value (no body: nothing can be proved of it). `freeByte k a` is the byte of the `k`-th draw at
data-memory address `a`: a host read of WS during BUSY (R229, I10) or a byte of an abandoned command's WS
(R221, I11). DESIGN CHOICE, safe: assumption log 5. -/
opaque Config.freeByte : Nat → Nat → Byte

/-- The parameter utf8_valid (I1), at the value the spec gives it: the table of R122. PRESUMED (the spec marks the
table as general knowledge), assumption log 6. -/
def Config.utf8Valid : Bytes → Bool := Sys2Proof.Machine.utf8TableValid

/-- What a byte of data memory that nothing has written reads as. The spec gives data memory no reset contents
(R50, R222). DESIGN CHOICE, unsafe: assumption log 1. -/
def Config.unlistedByte : Byte := 0#8

/-- The MEM_SIZE that `State.reset` carries: the value of spec/95_test_vectors.md's conventions. MEM_SIZE itself
is a field of State, so that statements hold for every size (R8, D11). DESIGN CHOICE, unsafe: assumption log 2. -/
def Config.memSizeAtReset : Fin (2 ^ 64 + 1) := ⟨0x10000, by decide⟩

end Sys2Proof
end

