-- ==== Sys2Proof/Machine/State.lean ====
section
/-! DEFINITION. The state of the FCLB and of what surrounds it, as plain data (spec/10_state.md R20, R48, R49), the
reasons a step can stop, and the state after reset (R50). INVENTORY.md lists every piece with its rule. -/

namespace Sys2Proof.Machine

/-- R27, R48: the engine phase. STATUS.BUSY is this field read as a bit, so the two cannot disagree. -/
inductive Phase where
  | idle
  | busy
  deriving DecidableEq, Repr

/-- R191: the error codes 0 to 6; the reserved codes 7 to 15 have no constructor (I16). -/
inductive ErrCode where
  | ok
  | messageTooLarge
  | capacityExceeded
  | invalidOrUnencoded
  | illegalCmd
  | range
  | overlap
  deriving DecidableEq, Repr

/-- R26: the fields of STATUS but BUSY, which is `phase`; the reserved bits always read 0. -/
structure Status where
  done : Bool := false
  err : ErrCode := .ok
  warnUtf8 : Bool := false
  ovr : Bool := false
  rej : Bool := false
  deriving DecidableEq, Repr

/-- R25: the six operand registers. -/
structure Operands where
  msgAddr : Word := 0#64
  msgLen : Word := 0#64
  srcAddr : Word := 0#64
  srcLen : Word := 0#64
  dstAddr : Word := 0#64
  cap : Word := 0#64
  deriving DecidableEq, Repr

/-- R33 to R36: the six result registers. -/
structure Results where
  result : Word := 0#64
  declLen : Word := 0#64
  needed : Word := 0#64
  avail : Word := 0#64
  utilNum : Word := 0#64
  utilDen : Word := 0#64
  deriving DecidableEq, Repr

/-- R41: the engine's latched copies LAT[...]. -/
structure Latched where
  cmd : Word := 0#64
  operands : Operands := {}
  deriving DecidableEq, Repr

/-- The data-memory addresses `base` to `base + size - 1`. -/
structure AddrRange where
  base : Nat
  size : Nat
  deriving DecidableEq, Repr

/-- R75: the read set RS and the potential write set WS, each a union of ranges. -/
structure Footprint where
  reads : List AddrRange := []
  writes : List AddrRange := []
  deriving DecidableEq, Repr

/-- R22: the fifteen registers by name. -/
inductive RegName where
  | id | cmd | status
  | msgAddr | msgLen | srcAddr | srcLen | dstAddr | cap
  | result | declLen | needed | avail | utilNum | utilDen
  deriving DecidableEq, Repr

/-- R100: one operation of the host's program. A register access names the byte offset from REG_BASE and the
access width in bits, so that the accesses R37 gives no meaning can be written down, and are refused. -/
inductive HostOp where
  /-- `wr NAME, v` -/
  | regWrite (off width : Nat) (v : Word)
  /-- `rd NAME` -/
  | regRead (off width : Nat)
  /-- `sb a, v` -/
  | storeByte (a : Word) (v : Byte)
  /-- `lb a` -/
  | loadByte (a : Word)
  /-- `poll` (R101): `rd STATUS` again and again until the value read has BUSY = 0 -/
  | poll
  deriving DecidableEq, Repr

/-- What the host has been given by one of its reads. -/
inductive HostRead where
  /-- the value of a register read at this offset -/
  | reg (off : Nat) (v : Word)
  /-- the byte of a data-memory read at this address -/
  | byte (a : Word) (v : Byte)
  deriving DecidableEq, Repr

/-- R236: who moves next, and the reset input of R220. -/
inductive Turn where
  | host
  | engine
  | resetAssert
  | resetRelease
  deriving DecidableEq, Repr

/-- Data memory (R60): (address, byte) pairs in the canonical form `Memory.wf` of Ops.lean. -/
abbrev Memory := List Host.Cell

/-- Why the machine stops. -/
inductive Fault where
  /-- Raised by the host's `sb` and `lb` at an address at or above MEM_SIZE: data memory holds no such byte (R60).
  Safe (assumption log 11). -/
  | outsideDataMemory
  /-- Raised by every host or engine turn while HAZARD_FAULT is set: the spec gives the program no meaning from
  then on (R228). Safe (assumption log 4). -/
  | hazard
  deriving DecidableEq, Repr

/-- What the model gives no meaning. -/
inductive Refusal where
  /-- An instruction with no meaning yet; no arm of `exec` answers it. Safe. -/
  | notModelled (mnemonic : String)
  /-- A register access that is not an aligned 64-bit access inside the block (R37, I13), raised by the host's turn.
  Safe: "A model refuses it, which errs toward unprovable" (assumption log 12). -/
  | badRegisterAccess
  /-- A register access while reset is asserted (R220, I13), raised by the host's turn. Safe (assumption log 12). -/
  | registerAccessInReset
  deriving DecidableEq, Repr

/-- R20: the block's state, the data memory it shares with the host, the model's fault flag, and the inputs that the
outside world feeds the machine. -/
structure State where
  /-- CMD: the last accepted command word (R24). -/
  cmd : Word
  /-- MSG_ADDR, MSG_LEN, SRC_ADDR, SRC_LEN, DST_ADDR, CAP (R25). -/
  operands : Operands
  /-- STATUS less BUSY (R26, R28 to R32). -/
  status : Status
  /-- RESULT, DECL_LEN, NEEDED, AVAIL, UTIL_NUM, UTIL_DEN (R33 to R36). -/
  results : Results
  /-- the engine phase, STATUS.BUSY (R27, R48). -/
  phase : Phase
  /-- LAT[...] (R41, R48). -/
  lat : Latched
  /-- RS and WS of the running command (R48, R75). -/
  footprint : Footprint
  /-- the data memory (R60). -/
  mem : Memory
  /-- MEM_SIZE (R8), a parameter of the machine that no step changes. -/
  memSize : Fin (2 ^ 64 + 1)
  /-- HAZARD_FAULT (R49). -/
  hazardFault : Bool
  /-- the reset input is asserted (R220). -/
  resetLine : Bool
  /-- the host operations still to run, first one first (R100, R237). -/
  host : List HostOp
  /-- who moves next, first one first; when it is empty a BUSY engine moves, else the host (R46, R236). -/
  turns : List Turn
  /-- what the host's reads have returned, the latest first. -/
  received : List HostRead
  /-- the number of free draws made so far (R221, R229): the model's own counter. -/
  draws : Nat
  deriving DecidableEq, Repr

/-- R50: the machine right after reset, with no host program placed, over a data memory of `size` bytes. -/
def State.resetWith (size : Fin (2 ^ 64 + 1)) : State where
  cmd := 0#64
  operands := {}
  status := {}
  results := {}
  phase := .idle
  lat := {}
  footprint := {}
  mem := []
  memSize := size
  hazardFault := false
  resetLine := false
  host := []
  turns := []
  received := []
  draws := 0

/-- R50 with MEM_SIZE as spec/95_test_vectors.md's conventions have it (assumption log 2). -/
def State.reset : State := State.resetWith Config.memSizeAtReset

end Sys2Proof.Machine
end

