-- ==== Sys2Proof/Machine/Ops.lean ====
section
/-! DEFINITION. The named operations over memory, ranges and registers, and the two ways a command ends: `raise`
(spec/60_exceptions.md R193, which is all that an exception is in this block, R190) and `finish`, both through the
completion step `complete` (spec/10_state.md R44). -/

namespace Sys2Proof.Machine

/-! ### Data memory (spec/20_memory.md R60, R63, R64) -/

/-- R11 `MemRead(a, 1)`: the byte most recently written at `a` (R63). -/
def Memory.read : Memory → Nat → Byte
  | [], _ => Config.unlistedByte
  | (k, v) :: rest, a => if a = k then v else Memory.read rest a

/-- Drop every entry for address `a`. -/
def Memory.erase : Memory → Nat → Memory
  | [], _ => []
  | (k, v) :: rest, a => if a = k then Memory.erase rest a else (k, v) :: Memory.erase rest a

/-- Put an entry before the first entry with a greater address. -/
def Memory.place : Memory → Nat → Byte → Memory
  | [], a, v => [(a, v)]
  | (k, x) :: rest, a, v =>
    if a < k then (a, v) :: (k, x) :: rest else (k, x) :: Memory.place rest a v

/-- R11 `MemWrite(a, 1, v)`. Writing what an unlisted address reads as removes the entry. -/
def Memory.write (m : Memory) (a : Nat) (v : Byte) : Memory :=
  if v = Config.unlistedByte then m.erase a else (m.erase a).place a v

/-- The canonical form: addresses strictly rising, no entry equal to what an unlisted address reads as. -/
abbrev Memory.wf (m : Memory) : Prop :=
  m.Pairwise (fun c d => c.1 < d.1) ∧ ∀ c ∈ m, c.2 ≠ Config.unlistedByte

/-- R11 `ReadBytes(a, n)`. -/
def Memory.readBytes (m : Memory) (a : Nat) : Nat → Bytes
  | 0 => []
  | n + 1 => m.read a :: Memory.readBytes m (a + 1) n

/-- R11 `WriteBytes(a, s)`. -/
def Memory.writeBytes (m : Memory) (a : Nat) : Bytes → Memory
  | [] => m
  | v :: vs => Memory.writeBytes (m.write a v) (a + 1) vs

/-! ### Ranges (spec/20_memory.md R69, R70, R75) -/

/-- MEM_SIZE as a natural. -/
def State.size (s : State) : Nat := s.memSize.val

/-- R69 `in_mem(a, n)`, exact arithmetic. -/
abbrev InMem (size a n : Nat) : Prop := n = 0 ∨ a + n ≤ size

/-- R70 `overlaps(a, n, b, m)`, exact arithmetic. -/
abbrev Overlaps (a n b m : Nat) : Prop := 0 < n ∧ 0 < m ∧ a < b + m ∧ b < a + n

/-- R75 `[a, +n)` with every address at or above MEM_SIZE dropped. -/
def clipRange (size a n : Nat) : AddrRange := { base := a, size := min n (size - a) }

/-- `a` is one of the addresses of the ranges. -/
abbrev InRanges (rs : List AddrRange) (a : Nat) : Prop :=
  ∃ r ∈ rs, r.base ≤ a ∧ a < r.base + r.size

/-! ### How a command ends (spec/10_state.md R44, spec/60_exceptions.md R193) -/

/-- R193: an error and the info its `raise` names; what is not named is 0. -/
structure Raise where
  err : ErrCode
  ovr : Bool := false
  regs : Results := {}
  deriving DecidableEq, Repr

/-- R44: what `Execute(LAT, mem)` answers: mem' and res. -/
structure CmdResult where
  mem : Memory
  err : ErrCode
  warnUtf8 : Bool
  ovr : Bool
  regs : Results
  deriving DecidableEq, Repr

/-- R193 `raise`: no write, the code, the named info, no warning. -/
def raise (mem : Memory) (r : Raise) : CmdResult :=
  { mem := mem, err := r.err, warnUtf8 := false, ovr := r.ovr, regs := r.regs }

/-- R11 `complete(...)`: success with the named result registers, with or without the warning of R123. -/
def finish (mem : Memory) (warn : Bool) (regs : Results) : CmdResult :=
  { mem := mem, err := .ok, warnUtf8 := warn, ovr := false, regs := regs }

/-- R44: the completion step, given what the command did. REJ keeps its value. -/
def complete (s : State) (r : CmdResult) : State :=
  { s with
    mem := r.mem
    results := r.regs
    status := { s.status with done := true, err := r.err, warnUtf8 := r.warnUtf8, ovr := r.ovr }
    footprint := {}
    phase := .idle }

/-- R96, R198: an illegal word completes with ILLEGAL_CMD, reads nothing and writes nothing. -/
def completeIllegal (s : State) : State := complete s (raise s.mem { err := .illegalCmd })

end Sys2Proof.Machine
end

