-- ==== Sys2Proof/Machine/Flags.lean ====
section
/-! DEFINITION. The STATUS word as software reads it (spec/10_state.md R26 to R32, spec/60_exceptions.md R191,
R192), and the UTF-8 warning (spec/40_frame_codec.md R123). -/

namespace Sys2Proof.Machine

/-- R191: the number of an error code. -/
def errNumber : ErrCode → Nat
  | .ok => 0
  | .messageTooLarge => 1
  | .capacityExceeded => 2
  | .invalidOrUnencoded => 3
  | .illegalCmd => 4
  | .range => 5
  | .overlap => 6

/-- R27: BUSY is the engine phase. -/
def busyBit : Phase → Bool
  | .idle => false
  | .busy => true

/-- R26: BUSY bit 0, DONE bit 1, ERR bits 7:4, WARN_UTF8 bit 8, OVR bit 9, REJ bit 16; every other bit reads 0. -/
def statusWord (ph : Phase) (st : Status) : Word :=
  BitVec.ofNat 64
    ((busyBit ph).toNat + 2 * st.done.toNat + 16 * errNumber st.err + 256 * st.warnUtf8.toNat
      + 512 * st.ovr.toNat + 65536 * st.rej.toNat)

/-- R123: the warning is raised when the check is on and the payload is not valid UTF-8. -/
def utf8Warning (u : Bool) (m : Bytes) : Bool := u && !Config.utf8Valid m

end Sys2Proof.Machine
end

