-- ==== Sys2Proof/Syntax.lean ====
section
/-! DEFINITION. The commands of the FCLB, one constructor per row of spec/opcode_table.json
(spec/30_encoding.md R92). A command word carries no operand (R97): its only fields are the flags P and U. -/

namespace Sys2Proof

/-- The five commands of R92. `p` is field P (R93: `false` packed, `true` unpacked), `u` is field U (R94: `true`
turns the UTF-8 check on). A command has a field only where R92 allows it. -/
inductive Instr where
  /-- OP 0x1 (R160). -/
  | capacity
  /-- OP 0x2 (R126), field P. -/
  | encodeFrame (p : Bool)
  /-- OP 0x3 (R127), fields P and U. -/
  | decodeFrame (p u : Bool)
  /-- OP 0x4 (R161). -/
  | embed
  /-- OP 0x5 (R162), field U. -/
  | extract (u : Bool)
  deriving DecidableEq, Repr

end Sys2Proof
end

