-- ==== Sys2Proof/WellFormed.lean ====
section
/-! DEFINITION. Well-formed command words, field by field (spec/30_encoding.md R91, R92, R96): the three ways a
word can be illegal are three checks on its fields. -/

namespace Sys2Proof

/-- R91: the fields of a command word. -/
structure CmdFields where
  /-- bits 3:0 -/
  op : BitVec 4
  /-- bit 4 -/
  p : Bool
  /-- bit 5 -/
  u : Bool
  /-- bits 63:6, reserved, must be 0 -/
  rsvd : BitVec 58
  deriving DecidableEq, Repr

/-- The fields of a word (R91). -/
def CmdFields.ofWord (w : Word) : CmdFields :=
  { op := w.extractLsb' 0 4, p := w.getLsbD 4, u := w.getLsbD 5, rsvd := w.extractLsb' 6 58 }

/-- R96, second case: no bit of 63:6 is set. -/
def CmdFields.rsvdZero (f : CmdFields) : Bool := f.rsvd == 0#58

/-- R96, first case: OP is one of 0x1 to 0x5. -/
def CmdFields.opNamed (f : CmdFields) : Bool := decide (1 ≤ f.op.toNat ∧ f.op.toNat ≤ 5)

/-- R93: P is allowed only with ENCODE_FRAME and DECODE_FRAME. -/
def CmdFields.pAllowed (f : CmdFields) : Bool := !f.p || f.op == 2#4 || f.op == 3#4

/-- R94: U is allowed only with DECODE_FRAME and EXTRACT. -/
def CmdFields.uAllowed (f : CmdFields) : Bool := !f.u || f.op == 3#4 || f.op == 5#4

/-- A word with these fields is legal (R96 read the other way round). -/
def CmdFields.wellFormed (f : CmdFields) : Bool :=
  f.rsvdZero && f.opNamed && f.pAllowed && f.uAllowed

/-- R92: the fields of each command. -/
def Instr.fields : Instr → CmdFields
  | .capacity => { op := 1#4, p := false, u := false, rsvd := 0#58 }
  | .encodeFrame p => { op := 2#4, p := p, u := false, rsvd := 0#58 }
  | .decodeFrame p u => { op := 3#4, p := p, u := u, rsvd := 0#58 }
  | .embed => { op := 4#4, p := false, u := false, rsvd := 0#58 }
  | .extract u => { op := 5#4, p := false, u := u, rsvd := 0#58 }

/-- A command is well-formed when its fields are. `Instr` has a field only where R92 allows one, so every command
is (Laws/PerInstr.lean); the checks bite on `CmdFields`. -/
def Instr.wellFormed (i : Instr) : Bool := i.fields.wellFormed

end Sys2Proof
end

