-- ==== Sys2Proof/Decode.lean ====
section
/-! DEFINITION. Decoding and encoding of command words, and the assembler's spelling of them
(spec/30_encoding.md R90 to R99). -/

namespace Sys2Proof

/-- R96: why a word is illegal. -/
inductive IllegalWord where
  /-- a bit of 63:6 is set -/
  | reservedBits
  /-- OP is 0x0 or 0x6 to 0xF -/
  | reservedOp
  /-- P is set with an OP that does not allow it -/
  | pNotAllowed
  /-- U is set with an OP that does not allow it -/
  | uNotAllowed
  deriving DecidableEq, Repr

/-- What the decoder answers: the command, or the illegal word's reason. -/
inductive Decoded where
  | legal (i : Instr)
  | illegal (why : IllegalWord)
  deriving DecidableEq, Repr

/-- The reason R96 gives first for an illegal word. -/
def illegalReason (w : Word) : IllegalWord :=
  let f := CmdFields.ofWord w
  if !f.rsvdZero then .reservedBits
  else if !f.opNamed then .reservedOp
  else if !f.pAllowed then .pNotAllowed
  else .uNotAllowed

/-- R95: `Execute`'s dispatch, row by row, on any word. -/
def decode (w : Word) : Decoded :=
  if w &&& 0xFFFFFFFFFFFFFFFF#64 = 0x01#64 then .legal .capacity
  else if w &&& 0xFFFFFFFFFFFFFFEF#64 = 0x02#64 then .legal (.encodeFrame (w.getLsbD 4))
  else if w &&& 0xFFFFFFFFFFFFFFCF#64 = 0x03#64 then .legal (.decodeFrame (w.getLsbD 4) (w.getLsbD 5))
  else if w &&& 0xFFFFFFFFFFFFFFFF#64 = 0x04#64 then .legal .embed
  else if w &&& 0xFFFFFFFFFFFFFFDF#64 = 0x05#64 then .legal (.extract (w.getLsbD 5))
  else .illegal (illegalReason w)

/-- Field P in its place, bit 4 (R91). -/
def pBit (p : Bool) : Word := if p then 0x10#64 else 0#64

/-- Field U in its place, bit 5 (R91). -/
def uBit (u : Bool) : Word := if u then 0x20#64 else 0#64

/-- The word of a command, from the fields of R91 and the OP values of R92. -/
def encode : Instr → Word
  | .capacity => 0x1#64
  | .encodeFrame p => 0x2#64 ||| pBit p
  | .decodeFrame p u => 0x3#64 ||| pBit p ||| uBit u
  | .embed => 0x4#64
  | .extract u => 0x5#64 ||| uBit u

/-- One row of R95's table (spec/opcode_table.json). -/
structure OpcodeRow where
  mnemonic : String
  pattern : Word
  mask : Word
  deriving DecidableEq, Repr

/-- R95: a word matches a row when `(w & mask) = match`. -/
def rowMatches (r : OpcodeRow) (w : Word) : Bool := w &&& r.mask == r.pattern

/-- R95: the five rows. -/
def opcodeTable : List OpcodeRow :=
  [ { mnemonic := "capacity", pattern := 0x01#64, mask := 0xFFFFFFFFFFFFFFFF#64 },
    { mnemonic := "encode_frame", pattern := 0x02#64, mask := 0xFFFFFFFFFFFFFFEF#64 },
    { mnemonic := "decode_frame", pattern := 0x03#64, mask := 0xFFFFFFFFFFFFFFCF#64 },
    { mnemonic := "embed", pattern := 0x04#64, mask := 0xFFFFFFFFFFFFFFFF#64 },
    { mnemonic := "extract", pattern := 0x05#64, mask := 0xFFFFFFFFFFFFFFDF#64 } ]

/-- R99: the assembler's spelling of a command (`.b` for P, `.u` for U, `.b` first). -/
def spelling : Instr → String
  | .capacity => "capacity"
  | .encodeFrame false => "encode_frame"
  | .encodeFrame true => "encode_frame.b"
  | .decodeFrame false false => "decode_frame"
  | .decodeFrame true false => "decode_frame.b"
  | .decodeFrame false true => "decode_frame.u"
  | .decodeFrame true true => "decode_frame.b.u"
  | .embed => "embed"
  | .extract false => "extract"
  | .extract true => "extract.u"

/-- The ten commands, in the order of R99's list. -/
def allInstrs : List Instr :=
  [ .capacity, .encodeFrame false, .encodeFrame true, .decodeFrame false false, .decodeFrame true false,
    .decodeFrame false true, .decodeFrame true true, .embed, .extract false, .extract true ]

/-- R99: the word a line of assembler stands for; `none` is a syntax error. -/
def assemble (line : String) : Option Word :=
  (allInstrs.find? (fun i => spelling i == line)).map encode

/-- The command the decoder reads from an instruction whose bits are `w`, numbered as spec/opcode_table.json
numbers them. A command is one 64-bit word in one register write (R90), so there is nothing to lay out; bits at or
above `nbits` are 0. -/
def decodeTableWord (nbits w : Nat) : Option Instr :=
  match decode (BitVec.ofNat 64 (w % 2 ^ nbits)) with
  | .legal i => some i
  | .illegal _ => none

end Sys2Proof
end

