-- ==== Sys2Proof/Machine/Codec.lean ====
section
/-! DEFINITION. The pure functions of the frame codec and of the pixel plane (spec/40_frame_codec.md R110 to R118,
R124, R125; spec/41_pixel_plane.md R150, R152, R158). -/

namespace Sys2Proof.Machine

/-- R110: the length header, most significant byte first. Defined for every natural; R110 uses it below 2^32
(assumption log 19). -/
def be32 (len : Nat) : Bytes :=
  [BitVec.ofNat 8 (len / 2 ^ 24), BitVec.ofNat 8 (len / 2 ^ 16), BitVec.ofNat 8 (len / 2 ^ 8), BitVec.ofNat 8 len]

/-- R111: the value of a sequence of bits, first bit most significant. -/
def headerValue (h : Bits) : Nat := h.foldl (fun acc b => 2 * acc + b.toNat) 0

/-- R112: the bits of a byte, most significant first. -/
def bitsOfByte (b : Byte) : Bits :=
  [b.getLsbD 7, b.getLsbD 6, b.getLsbD 5, b.getLsbD 4, b.getLsbD 3, b.getLsbD 2, b.getLsbD 1, b.getLsbD 0]

/-- R113: bytes to bits. -/
def expand (s : Bytes) : Bits := s.flatMap bitsOfByte

/-- R114: one byte from eight bits, first bit most significant. -/
def byteOfBits (t : Bits) : Byte := BitVec.ofNat 8 (headerValue t)

/-- R114: bits back to bytes. It is applied only to sequences whose length is a multiple of 8; bits left over at the
end would be dropped (assumption log 19). -/
def regroup : Bits → Bytes
  | b7 :: b6 :: b5 :: b4 :: b3 :: b2 :: b1 :: b0 :: rest =>
    byteOfBits [b7, b6, b5, b4, b3, b2, b1, b0] :: regroup rest
  | _ => []

/-- R115: the message with its length header before it. -/
def frame (m : Bytes) : Bytes := be32 m.length ++ m

/-- R116, R117: frame encoding; a message whose length does not fit 32 bits is too large. -/
def encodeFrame (m : Bytes) : Except Raise Bits :=
  if 2 ^ 32 ≤ m.length then .error { err := .messageTooLarge } else .ok (expand (frame m))

/-- R118, R196: the error of the frame decoder. -/
def unencoded (ovr : Bool) (len : Nat) : Raise :=
  { err := .invalidOrUnencoded, ovr := ovr, regs := { declLen := BitVec.ofNat 64 len } }

/-- R118: frame decoding against a capacity bound, with the three tests in the order of R201. -/
def decodeFrame (t : Bits) (cap : Nat) : Except Raise (Bytes × Nat) :=
  if t.length < 32 then .error (unencoded true 0)
  else
    let len := headerValue (t.take 32)
    if cap < len then .error (unencoded false len)
    else if t.length < 32 + 8 * len then .error (unencoded true len)
    else .ok (regroup ((t.drop 32).take (8 * len)), len)

/-- R125: a bit as the byte 0x00 or 0x01. -/
def bitByte (b : Bool) : Byte := if b then 0x01#8 else 0x00#8

/-- R125, R158: bit 0 of each byte. -/
def lsbPlane (raw : Bytes) : Bits := raw.map (fun b => b.getLsbD 0)

/-- R150: the capacity in bytes of a pixel buffer of `n` elements. -/
def capacity (n : Nat) : Nat := n / 8

/-- R155: one element takes one frame bit: `(buf[i] & 0xFE) | bit`. -/
def setLsb (b : Byte) (bit : Bool) : Byte := (b &&& 0xFE#8) ||| bitByte bit

/-- R152, R156: the elements take the bits in order, and what has no bit is kept. -/
def writePlane : Bytes → Bits → Bytes
  | b :: bs, t :: ts => setLsb b t :: writePlane bs ts
  | bs, [] => bs
  | [], _ :: _ => []

/-- R152: embedding a message in a pixel buffer. -/
def embedPixels (buf m : Bytes) : Except Raise Bytes :=
  match encodeFrame m with
  | .error r => .error r
  | .ok bits =>
    if capacity buf.length < 4 + m.length then
      .error { err := .capacityExceeded,
               regs := { needed := BitVec.ofNat 64 (4 + m.length), avail := BitVec.ofNat 64 (capacity buf.length) } }
    else .ok (writePlane buf bits)

/-- R158: extraction from a pixel buffer. -/
def extractPixels (buf : Bytes) : Except Raise (Bytes × Nat) :=
  decodeFrame (lsbPlane buf) (capacity buf.length)

end Sys2Proof.Machine
end

