-- ==== Sys2Proof/Machine/Operands.lean ====
section
/-! DEFINITION. What a command reads besides memory: the two forms a bit stream has in memory
(spec/40_frame_codec.md R124, R125), the lengths of outputs, and the footprint computed from the latched operands
(spec/20_memory.md R75). -/

namespace Sys2Proof.Machine

/-- R124, R125: the bit stream that raw bytes stand for, packed or unpacked. -/
def loadStream (p : Bool) (raw : Bytes) : Bits := if p then lsbPlane raw else expand raw

/-- R124, R125: the bytes that store a bit stream, packed or unpacked. -/
def storeStream (p : Bool) (t : Bits) : Bytes := if p then t.map bitByte else regroup t

/-- R126: how many bytes the frame of a message of `len` bytes takes in memory. -/
def streamLength (p : Bool) (len : Nat) : Nat := if p then 8 * (4 + len) else 4 + len

/-- R161: how many bytes EMBED writes: the frame's elements in place, the whole buffer in copy mode. -/
def embedLength (d s n len : Nat) : Nat := if d = s then 8 * (4 + len) else n

/-- R75: the footprint of the command in LAT. -/
def footprintOf (size : Nat) (lat : Latched) : Footprint :=
  let ml := lat.operands.msgLen.toNat
  let n := lat.operands.srcLen.toNat
  let a := lat.operands.msgAddr.toNat
  let s := lat.operands.srcAddr.toNat
  let d := lat.operands.dstAddr.toNat
  match decode lat.cmd with
  | .illegal _ => {}
  | .legal .capacity => {}
  | .legal (.encodeFrame p) =>
    if 2 ^ 32 ≤ ml then {}
    else { reads := [clipRange size a ml], writes := [clipRange size d (streamLength p ml)] }
  | .legal (.decodeFrame _ _) =>
    { reads := [clipRange size s n],
      writes := [clipRange size d (min lat.operands.cap.toNat (2 ^ 32 - 1))] }
  | .legal .embed =>
    if 2 ^ 32 ≤ ml ∨ n / 8 < 4 + ml then {}
    else { reads := [clipRange size s n, clipRange size a ml],
           writes := [clipRange size d (embedLength d s n ml)] }
  | .legal (.extract _) =>
    { reads := [clipRange size s n], writes := [clipRange size d (n / 8)] }

end Sys2Proof.Machine
end

