-- ==== Sys2Proof/Machine/FrameCodec.lean ====
section
/-! DEFINITION. The frame codec commands ENCODE_FRAME and DECODE_FRAME (spec/40_frame_codec.md R126, R127): what
`Execute(LAT, mem)` answers, and the meaning, which completes the command with it (spec/10_state.md R44). -/

namespace Sys2Proof.Machine

/-- R126. The message is read before anything is written, and every check comes first (R201, R203). -/
def encodeFrameCmd (p : Bool) (size : Nat) (o : Operands) (mem : Memory) : CmdResult :=
  let a := o.msgAddr.toNat
  let ml := o.msgLen.toNat
  let d := o.dstAddr.toNat
  let outlen := streamLength p ml
  if 2 ^ 32 ≤ ml then raise mem { err := .messageTooLarge }
  else if ¬ InMem size a ml then raise mem { err := .range }
  else if ¬ InMem size d outlen then raise mem { err := .range }
  else if Overlaps d outlen a ml then raise mem { err := .overlap }
  else
    match encodeFrame (mem.readBytes a ml) with
    | .error r => raise mem r
    | .ok t => finish (mem.writeBytes d (storeStream p t)) false { result := BitVec.ofNat 64 outlen }

/-- The common end of DECODE_FRAME and EXTRACT (R127, R162), from the bit stream `t` on: decode it against the
bound, check the payload's range, write the payload, check it for UTF-8. -/
def deliverPayload (u : Bool) (size s n d : Nat) (t : Bits) (cap : Nat) (mem : Memory) : CmdResult :=
  match decodeFrame t cap with
  | .error r => raise mem r
  | .ok (m, len) =>
    if ¬ InMem size d len then raise mem { err := .range, regs := { declLen := BitVec.ofNat 64 len } }
    else if Overlaps d len s n then raise mem { err := .overlap, regs := { declLen := BitVec.ofNat 64 len } }
    else
      finish (mem.writeBytes d m) (utf8Warning u m)
        { result := BitVec.ofNat 64 len, declLen := BitVec.ofNat 64 len }

/-- R127. -/
def decodeFrameCmd (p u : Bool) (size : Nat) (o : Operands) (mem : Memory) : CmdResult :=
  let s := o.srcAddr.toNat
  let n := o.srcLen.toNat
  if ¬ InMem size s n then raise mem { err := .range }
  else deliverPayload u size s n o.dstAddr.toNat (loadStream p (mem.readBytes s n)) o.cap.toNat mem

/-- The meaning of ENCODE_FRAME: R126 on the latched operands, then R44. -/
def execEncodeFrame (p : Bool) (s : State) : Host.Outcome State Fault Refusal :=
  .next (complete s (encodeFrameCmd p s.size s.lat.operands s.mem))

/-- The meaning of DECODE_FRAME: R127 on the latched operands, then R44. -/
def execDecodeFrame (p u : Bool) (s : State) : Host.Outcome State Fault Refusal :=
  .next (complete s (decodeFrameCmd p u s.size s.lat.operands s.mem))

end Sys2Proof.Machine
end

