-- ==== Sys2Proof/Machine/PixelPlane.lean ====
section
/-! DEFINITION. The bit-plane commands CAPACITY, EMBED and EXTRACT (spec/41_pixel_plane.md R160 to R162): what
`Execute(LAT, mem)` answers, and the meaning, which completes the command with it (spec/10_state.md R44). -/

namespace Sys2Proof.Machine

/-- R160. -/
def capacityCmd (o : Operands) (mem : Memory) : CmdResult :=
  finish mem false { result := BitVec.ofNat 64 (capacity o.srcLen.toNat) }

/-- R35: NEEDED and AVAIL, which EMBED records once it is past the MessageTooLarge check. -/
def embedInfo (len n : Nat) : Results :=
  { needed := BitVec.ofNat 64 (4 + len), avail := BitVec.ofNat 64 (capacity n) }

/-- R161. In place when `d = s`, else a copy; both buffer and message are read before anything is written. -/
def embedCmd (size : Nat) (o : Operands) (mem : Memory) : CmdResult :=
  let s := o.srcAddr.toNat
  let n := o.srcLen.toNat
  let a := o.msgAddr.toNat
  let ml := o.msgLen.toNat
  let d := o.dstAddr.toNat
  let info := embedInfo ml n
  let wlen := embedLength d s n ml
  if 2 ^ 32 ≤ ml then raise mem { err := .messageTooLarge }
  else if capacity n < 4 + ml then raise mem { err := .capacityExceeded, regs := info }
  else if ¬ InMem size s n then raise mem { err := .range, regs := info }
  else if ¬ InMem size a ml then raise mem { err := .range, regs := info }
  else if ¬ InMem size d wlen then raise mem { err := .range, regs := info }
  else if Overlaps d wlen a ml then raise mem { err := .overlap, regs := info }
  else if d ≠ s ∧ Overlaps d n s n then raise mem { err := .overlap, regs := info }
  else
    match embedPixels (mem.readBytes s n) (mem.readBytes a ml) with
    | .error r => raise mem r
    | .ok out =>
      finish (mem.writeBytes d (out.take wlen)) false
        { info with
          result := BitVec.ofNat 64 wlen
          utilNum := BitVec.ofNat 64 (8 * (4 + ml))
          utilDen := BitVec.ofNat 64 (8 * capacity n) }

/-- R162. CAP is not read: the bound is the buffer's own capacity. -/
def extractCmd (u : Bool) (size : Nat) (o : Operands) (mem : Memory) : CmdResult :=
  let s := o.srcAddr.toNat
  let n := o.srcLen.toNat
  if ¬ InMem size s n then raise mem { err := .range }
  else deliverPayload u size s n o.dstAddr.toNat (lsbPlane (mem.readBytes s n)) (capacity n) mem

/-- The meaning of CAPACITY: R160 on the latched operands, then R44. -/
def execCapacity (s : State) : Host.Outcome State Fault Refusal :=
  .next (complete s (capacityCmd s.lat.operands s.mem))

/-- The meaning of EMBED: R161 on the latched operands, then R44. -/
def execEmbed (s : State) : Host.Outcome State Fault Refusal :=
  .next (complete s (embedCmd s.size s.lat.operands s.mem))

/-- The meaning of EXTRACT: R162 on the latched operands, then R44. -/
def execExtract (u : Bool) (s : State) : Host.Outcome State Fault Refusal :=
  .next (complete s (extractCmd u s.size s.lat.operands s.mem))

end Sys2Proof.Machine
end

