-- ==== Sys2Proof/Machine/Dispatch.lean ====
section
/-! DEFINITION. One arm per command: Execute(LAT, mem) and completion (spec/10_state.md R44, spec/30_encoding.md R95). -/

namespace Sys2Proof.Machine

def exec (i : Instr) (s : State) : Host.Outcome State Fault Refusal :=
  match i with
  | .capacity => Sys2Proof.Machine.execCapacity s
  | .encodeFrame p => Sys2Proof.Machine.execEncodeFrame p s
  | .decodeFrame p u => Sys2Proof.Machine.execDecodeFrame p u s
  | .embed => Sys2Proof.Machine.execEmbed s
  | .extract u => Sys2Proof.Machine.execExtract u s

end Sys2Proof.Machine
end

