-- ==== Sys2Proof/Machine/Lifecycle.lean ====
section
/-! DEFINITION. The registers as the host sees them, acceptance, rejection, reset, and the two agents' turns
(spec/10_state.md R22 to R47, spec/20_memory.md R84, spec/70_reset_and_hazards.md R220 to R229). -/

namespace Sys2Proof.Machine

/-! ### The register map (R22) -/

/-- R22: the offset of a register. -/
def regOffset : RegName → Nat
  | .id => 0x00
  | .cmd => 0x08
  | .status => 0x10
  | .msgAddr => 0x18
  | .msgLen => 0x20
  | .srcAddr => 0x28
  | .srcLen => 0x30
  | .dstAddr => 0x38
  | .cap => 0x40
  | .result => 0x48
  | .declLen => 0x50
  | .needed => 0x58
  | .avail => 0x60
  | .utilNum => 0x68
  | .utilDen => 0x70

/-- The fifteen registers in the order of R22's table. -/
def allRegs : List RegName :=
  [.id, .cmd, .status, .msgAddr, .msgLen, .srcAddr, .srcLen, .dstAddr, .cap,
    .result, .declLen, .needed, .avail, .utilNum, .utilDen]

/-- R22: the register at an offset; none at the reserved offsets. -/
def regAt (off : Nat) : Option RegName := allRegs.find? (fun r => regOffset r == off)

/-- R37: an aligned 64-bit access inside the block. -/
abbrev LegalAccess (off width : Nat) : Prop := width = 64 ∧ off % 8 = 0 ∧ off ≤ 0xF8

/-- R23: the constant of ID. -/
def idWord : Word := 0x46434C4200000001#64

/-- R22, R39: the value a read of a register returns. -/
def readReg (s : State) : RegName → Word
  | .id => idWord
  | .cmd => s.cmd
  | .status => statusWord s.phase s.status
  | .msgAddr => s.operands.msgAddr
  | .msgLen => s.operands.msgLen
  | .srcAddr => s.operands.srcAddr
  | .srcLen => s.operands.srcLen
  | .dstAddr => s.operands.dstAddr
  | .cap => s.operands.cap
  | .result => s.results.result
  | .declLen => s.results.declLen
  | .needed => s.results.needed
  | .avail => s.results.avail
  | .utilNum => s.results.utilNum
  | .utilDen => s.results.utilDen

/-- R38: a read at an offset; a reserved one reads 0. -/
def readOffset (s : State) (off : Nat) : Word :=
  match regAt off with
  | some r => readReg s r
  | none => 0#64

/-- R40, R41, R42: acceptance of the word `v`, one atomic step. -/
def accept (s : State) (v : Word) : State :=
  { s with
    cmd := v
    lat := { cmd := v, operands := s.operands }
    results := {}
    status := {}
    footprint := footprintOf s.size { cmd := v, operands := s.operands }
    phase := .busy }

/-- R43: rejection sets REJ and changes nothing else; the word is lost. -/
def reject (s : State) : State := { s with status := { s.status with rej := true } }

/-- R24: a write to CMD. -/
def writeCmd (s : State) (v : Word) : State :=
  match s.phase with
  | .idle => accept s v
  | .busy => reject s

/-- R25, R38: a write to a register; a write to a read-only one is ignored. -/
def writeReg (s : State) (v : Word) : RegName → State
  | .cmd => writeCmd s v
  | .msgAddr => { s with operands := { s.operands with msgAddr := v } }
  | .msgLen => { s with operands := { s.operands with msgLen := v } }
  | .srcAddr => { s with operands := { s.operands with srcAddr := v } }
  | .srcLen => { s with operands := { s.operands with srcLen := v } }
  | .dstAddr => { s with operands := { s.operands with dstAddr := v } }
  | .cap => { s with operands := { s.operands with cap := v } }
  | .id => s
  | .status => s
  | .result => s
  | .declLen => s
  | .needed => s
  | .avail => s
  | .utilNum => s
  | .utilDen => s

/-- R38: a write at an offset; a write to a reserved one is ignored. -/
def writeOffset (s : State) (off : Nat) (v : Word) : State :=
  match regAt off with
  | some r => writeReg s v r
  | none => s

/-! ### Reset (R50, R220 to R222) -/

/-- The free bytes of draw `k` at the addresses `a` to `a + n - 1`. -/
def freeBytes (k a : Nat) : Nat → Bytes
  | 0 => []
  | n + 1 => Config.freeByte k a :: freeBytes k (a + 1) n

/-- R221: every byte of the ranges takes the free value of draw `k`. -/
def scramble (k : Nat) (m : Memory) : List AddrRange → Memory
  | [] => m
  | r :: rs => scramble k (m.writeBytes r.base (freeBytes k r.base r.size)) rs

/-- R220: one step that puts every piece of block state to its value of R50, from any state. Data memory keeps its
bytes but for the WS of a command that reset abandons (R221, R222); HAZARD_FAULT is unchanged (R49). -/
def assertReset (s : State) : State :=
  { s with
    cmd := 0#64
    operands := {}
    status := {}
    results := {}
    phase := .idle
    lat := {}
    footprint := {}
    mem := scramble s.draws s.mem s.footprint.writes
    resetLine := true
    draws := s.draws + 1 }

/-- The reset input goes inactive: the block waits for a CMD write (R223, R224). -/
def releaseReset (s : State) : State := { s with resetLine := false }

/-! ### The host's turn (R47, R100) -/

/-- The host is given a value. -/
def receive (s : State) (r : HostRead) : State := { s with received := r :: s.received }

/-- R37, R220: a register access runs only when reset is not asserted and the access has a meaning. -/
def regAccess (s : State) (off width : Nat) (after : State) : Host.Outcome State Fault Refusal :=
  if s.resetLine then .refused .registerAccessInReset
  else if LegalAccess off width then .next after
  else .refused .badRegisterAccess

/-- R228: while BUSY a host write to RS or WS sets HAZARD_FAULT. Elsewhere, and while IDLE, the write takes effect
(R84). What the byte holds after a hazard has no meaning; the model leaves it (assumption log 4). -/
def hostStore (s : State) (a : Word) (v : Byte) : Host.Outcome State Fault Refusal :=
  if s.size ≤ a.toNat then .fault .outsideDataMemory
  else if s.phase = .busy ∧ (InRanges s.footprint.reads a.toNat ∨ InRanges s.footprint.writes a.toNat) then
    .next { s with hazardFault := true }
  else .next { s with mem := s.mem.write a.toNat v }

/-- R229: while BUSY a host read of WS returns a free byte, drawn afresh; any other read returns the byte in memory
(R63, R84). -/
def hostLoad (s : State) (a : Word) : Host.Outcome State Fault Refusal :=
  if s.size ≤ a.toNat then .fault .outsideDataMemory
  else if s.phase = .busy ∧ InRanges s.footprint.writes a.toNat then
    .next (receive { s with draws := s.draws + 1 } (.byte a (Config.freeByte s.draws a.toNat)))
  else .next (receive s (.byte a (s.mem.read a.toNat)))

/-- R101 `poll`: read STATUS; with BUSY = 1 the operation stays to be run again. -/
def hostPoll (s : State) : State :=
  let s' := receive s (.reg 0x10 (readOffset s 0x10))
  match s.phase with
  | .idle => s'
  | .busy => { s' with host := .poll :: s'.host }

/-- One host operation, already taken off the host's program. -/
def hostOperation (s : State) : HostOp → Host.Outcome State Fault Refusal
  | .regWrite off width v => regAccess s off width (writeOffset s off v)
  | .regRead off width => regAccess s off width (receive s (.reg off (readOffset s off)))
  | .storeByte a v => hostStore s a v
  | .loadByte a => hostLoad s a
  | .poll => regAccess s 0x10 64 (hostPoll s)

/-- The host runs its next operation, if it has one left. -/
def hostTurn (s : State) : Host.Outcome State Fault Refusal :=
  if s.hazardFault then .fault .hazard
  else
    match s.host with
    | [] => .next s
    | op :: rest => hostOperation { s with host := rest } op

/-! ### The engine's turn (R44, R46) -/

/-- While BUSY the engine executes the latched word and completes; while IDLE its step is not enabled (R46), and
nothing happens. -/
def engineTurn (s : State) : Host.Outcome State Fault Refusal :=
  if s.hazardFault then .fault .hazard
  else
    match s.phase with
    | .idle => .next s
    | .busy =>
      match decode s.lat.cmd with
      | .legal i => exec i s
      | .illegal _ => .next (completeIllegal s)

/-- R236: one step of whoever is next in `turns`. With nothing scheduled a BUSY engine completes (R46), and
otherwise the host moves. -/
def takeTurn (s : State) : Host.Outcome State Fault Refusal :=
  match s.turns with
  | .resetAssert :: rest => .next (assertReset { s with turns := rest })
  | .resetRelease :: rest => .next (releaseReset { s with turns := rest })
  | .host :: rest => hostTurn { s with turns := rest }
  | .engine :: rest => engineTurn { s with turns := rest }
  | [] =>
    match s.phase with
    | .busy => engineTurn s
    | .idle => hostTurn s

/-- The machine with the command word `w` accepted and nothing else scheduled, so that its next step runs `w`
(assumption log 10). -/
def placeCommand (s : State) (w : Word) : State :=
  accept { s with turns := [], resetLine := false, hazardFault := false } w

/-! ### Host programs (R100, R101) -/

/-- `wr NAME, v`. -/
def wr (r : RegName) (v : Word) : HostOp := .regWrite (regOffset r) 64 v

/-- `rd NAME`. -/
def rd (r : RegName) : HostOp := .regRead (regOffset r) 64

/-- `cmd m`. -/
def cmdOp (i : Instr) : HostOp := wr .cmd (encode i)

/-- `run m`. -/
def runOps (i : Instr) : List HostOp := [cmdOp i, .poll]

/-- `setup NAME1=v1, NAME2=v2, ...`. -/
def setupOps (l : List (RegName × Word)) : List HostOp := l.map (fun e => wr e.1 e.2)

end Sys2Proof.Machine
end

