-- ==== Sys2Proof/Machine/Step.lean ====
section
/-! DEFINITION. The step of the machine, and how a command word is placed for it. -/

namespace Sys2Proof.Machine

/-- One step of the machine: one turn of the host, of the engine or of the reset input (spec/70_reset_and_hazards.md
R236). -/
def step (s : State) : Host.Outcome State Fault Refusal := takeTurn s

/-- `s` with the instruction whose bits are `w` (R90: one 64-bit word, bits at or above `nbits` zero) placed so that
the very next step runs it: the word is accepted as a CMD write is (assumption log 10). -/
def State.withFetchWord (s : State) (nbits w : Nat) : State :=
  placeCommand s (BitVec.ofNat 64 (w % 2 ^ nbits))

end Sys2Proof.Machine
end

