-- ==== Sys2Proof/Safety.lean ====
section
/-! DEFINITION. What a good state and a good end of a run are, in the terms the statements use. -/

namespace Sys2Proof.Safety

open Sys2Proof.Machine

/-- The invariant of the machine: what every step keeps, and what holds after reset.
Each field names the rule of spec/ it says. -/
structure Invariant (s : State) : Prop where
  /-- the canonical form of data memory -/
  memory_wf : s.mem.wf
  /-- R60: data memory holds addresses 0 to MEM_SIZE - 1 -/
  memory_inside : ∀ c ∈ s.mem, c.1 < s.size
  /-- R24, R41: CMD is the last accepted word, and so is LAT[CMD] -/
  cmd_latched : s.cmd = s.lat.cmd
  /-- R28, R29, R45: while BUSY, DONE, ERR, WARN_UTF8 and OVR read 0 -/
  busy_status : s.phase = .busy → s.status = { rej := s.status.rej }
  /-- R42: while BUSY the result registers read 0 -/
  busy_results : s.phase = .busy → s.results = {}
  /-- R75: while BUSY the footprint is that of the latched command -/
  busy_footprint : s.phase = .busy → s.footprint = footprintOf s.size s.lat
  /-- R44: while IDLE the footprint is empty -/
  idle_footprint : s.phase = .idle → s.footprint = {}
  /-- R28, R50: IDLE with DONE = 0 is the state after reset, before any command -/
  idle_not_done : s.phase = .idle → s.status.done = false →
    s.status = {} ∧ s.results = {} ∧ s.lat = {}
  /-- R202: an error and a warning never come together -/
  warn_only_ok : s.status.warnUtf8 = true → s.status.err = .ok
  /-- R31: OVR is 0 whenever ERR is not INVALID_OR_UNENCODED -/
  ovr_only_unencoded : s.status.ovr = true → s.status.err = .invalidOrUnencoded
  /-- R33, R36: on error RESULT and the utilisation registers are 0 -/
  error_no_result : s.status.err ≠ .ok →
    s.results.result = 0#64 ∧ s.results.utilNum = 0#64 ∧ s.results.utilDen = 0#64
  /-- R36: both utilisation registers are 0, or `0 < UTIL_NUM <= UTIL_DEN` -/
  util_fraction : (s.results.utilNum = 0#64 ∧ s.results.utilDen = 0#64) ∨
    (0 < s.results.utilNum.toNat ∧ s.results.utilNum.toNat ≤ s.results.utilDen.toNat)
  /-- R220: no command runs while reset is asserted -/
  reset_idle : s.resetLine = true → s.phase = .idle

/-- R237: the end of a run of a host program. -/
abbrev GoodEnd (s : State) : Prop := s.host = [] ∧ s.phase = .idle ∧ s.hazardFault = false

/-- R193 with R44: the state in which a command ends that raises `err`. Nothing but STATUS, the result registers, the
phase and the footprint differs from `s`: no byte of memory is written. -/
def endsInError (s : State) (err : ErrCode) (ovr : Bool) (regs : Results) : State :=
  { s with
    results := regs
    status := { done := true, err := err, warnUtf8 := false, ovr := ovr, rej := s.status.rej }
    footprint := {}
    phase := .idle }

/-- R11 `complete(...)` with R44: the state in which a command ends that succeeds and leaves the memory `mem`. -/
def endsInSuccess (s : State) (mem : Memory) (warn : Bool) (regs : Results) : State :=
  { s with
    mem := mem
    results := regs
    status := { done := true, err := .ok, warnUtf8 := warn, ovr := false, rej := s.status.rej }
    footprint := {}
    phase := .idle }

/-- It is the engine's turn in `s`, and `t` is `s` with that turn taken off the schedule. -/
abbrev EngineMoves (s t : State) : Prop :=
  (s.turns = [] ∧ s.phase = .busy ∧ t = s) ∨ (s.turns = .engine :: t.turns ∧ t = { s with turns := t.turns })

/-- It is the host's turn in `s` and its next operation is `op`; `t` is `s` with both taken off. -/
abbrev HostMoves (s : State) (op : HostOp) (t : State) : Prop :=
  s.host = op :: t.host ∧
    ((s.turns = [] ∧ s.phase = .idle ∧ t = { s with host := t.host }) ∨
      (s.turns = .host :: t.turns ∧ t = { s with turns := t.turns, host := t.host }))

end Sys2Proof.Safety
end

