-- ==== Sys2Proof/Certificates/Slice0/Obligations.lean ====
section
/-! DEFINITION. The statements for the provers, from the numbered rules of spec/. OBLIGATIONS.json lists them in this
order with their rules. -/

open Sys2Proof Sys2Proof.Machine Sys2Proof.Safety

/-! ### Encoding (spec/30_encoding.md) -/

/-- R91, R92, R95: each word means at most one command, and each command has exactly one word. -/
def Obligations.DecodeIffEncode : Prop :=
  ∀ (w : Word) (i : Instr), decode w = .legal i ↔ w = encode i

/-- R95: a word is legal when exactly one row of the table matches it, no two rows match one word, and exactly ten
words are legal. -/
def Obligations.LegalWordsMatchOneRow : Prop :=
  ∀ w : Word,
    (opcodeTable.filter (fun r => rowMatches r w)).length ≤ 1 ∧
    ((∃ i, decode w = .legal i) ↔ (opcodeTable.filter (fun r => rowMatches r w)).length = 1) ∧
    ((∃ i, decode w = .legal i) ↔
      w ∈ [0x01#64, 0x02#64, 0x12#64, 0x03#64, 0x13#64, 0x23#64, 0x33#64, 0x04#64, 0x05#64, 0x25#64])

/-- R96: the three cases in which a word is illegal, by its fields. -/
def Obligations.IllegalWordsByField : Prop :=
  ∀ w : Word, (∃ why, decode w = .illegal why) ↔
    (w.toNat % 16 = 0 ∨ 6 ≤ w.toNat % 16) ∨ w.toNat / 64 ≠ 0 ∨
    (w.getLsbD 4 = true ∧ w.toNat % 16 ≠ 2 ∧ w.toNat % 16 ≠ 3) ∨
    (w.getLsbD 5 = true ∧ w.toNat % 16 ≠ 3 ∧ w.toNat % 16 ≠ 5)

/-- R92, R95: words of every family, written out from the fields of R91. -/
def Obligations.WordsDecodeAsWritten : Prop :=
  decode 0b000001#64 = .legal .capacity ∧
  decode 0b000010#64 = .legal (.encodeFrame false) ∧ decode 0b010010#64 = .legal (.encodeFrame true) ∧
  decode 0b000011#64 = .legal (.decodeFrame false false) ∧ decode 0b010011#64 = .legal (.decodeFrame true false) ∧
  decode 0b100011#64 = .legal (.decodeFrame false true) ∧ decode 0b110011#64 = .legal (.decodeFrame true true) ∧
  decode 0b000100#64 = .legal .embed ∧
  decode 0b000101#64 = .legal (.extract false) ∧ decode 0b100101#64 = .legal (.extract true) ∧
  decode 0b000000#64 = .illegal .reservedOp ∧ decode 0b010001#64 = .illegal .pNotAllowed ∧
  decode 0b100010#64 = .illegal .uNotAllowed ∧ decode 0b1000001#64 = .illegal .reservedBits

/-- R99: the assembler's ten spellings and their words; any other line is a syntax error. -/
def Obligations.AssemblerSpellings : Prop :=
  ∀ (line : String) (w : Word), assemble line = some w ↔
    (line, w) ∈ [("capacity", 0x01#64), ("encode_frame", 0x02#64), ("encode_frame.b", 0x12#64),
      ("decode_frame", 0x03#64), ("decode_frame.b", 0x13#64), ("decode_frame.u", 0x23#64),
      ("decode_frame.b.u", 0x33#64), ("embed", 0x04#64), ("extract", 0x05#64), ("extract.u", 0x25#64)]

/-! ### Registers and host accesses (spec/10_state.md) -/

/-- R22, R39: a host read at each offset of R22 gives the host the value that stands there, and has no side effect.
STATUS is read through `readReg`; StatusFields and ReservedOffsetsAndReadOnly give every bit of it. -/
def Obligations.HostReadsRegister : Prop :=
  ∀ (s t : State) (off : Nat) (v : Word),
    (off, v) ∈ [(0x00, 0x46434C4200000001#64), (0x08, s.cmd), (0x10, readReg s .status),
      (0x18, s.operands.msgAddr), (0x20, s.operands.msgLen), (0x28, s.operands.srcAddr),
      (0x30, s.operands.srcLen), (0x38, s.operands.dstAddr), (0x40, s.operands.cap),
      (0x48, s.results.result), (0x50, s.results.declLen), (0x58, s.results.needed),
      (0x60, s.results.avail), (0x68, s.results.utilNum), (0x70, s.results.utilDen)] →
    HostMoves s (.regRead off 64) t → s.hazardFault = false → s.resetLine = false →
    step s = .next { t with received := .reg off v :: s.received }

/-- R38: a reserved offset reads 0 and ignores writes, a read-only register ignores writes, and the reserved bits of
STATUS read 0. -/
def Obligations.ReservedOffsetsAndReadOnly : Prop :=
  (∀ (s t : State) (off : Nat), 0x78 ≤ off → off ≤ 0xF8 → off % 8 = 0 →
    s.hazardFault = false → s.resetLine = false →
    (HostMoves s (.regRead off 64) t → step s = .next { t with received := .reg off 0#64 :: s.received }) ∧
    (∀ v, HostMoves s (.regWrite off 64 v) t → step s = .next t)) ∧
  (∀ (s t : State) (off : Nat) (v : Word),
    off ∈ [0x00, 0x10, 0x48, 0x50, 0x58, 0x60, 0x68, 0x70] →
    HostMoves s (.regWrite off 64 v) t → s.hazardFault = false → s.resetLine = false →
    step s = .next t) ∧
  (∀ (s : State) (k : Nat), k ∈ [2, 3] ∨ (10 ≤ k ∧ k ≤ 15) ∨ 17 ≤ k → (readReg s .status).getLsbD k = false)

/-- R26, R27, R191: where each field stands in the STATUS word, and the number of each error code. -/
def Obligations.StatusFields : Prop :=
  ∀ s : State,
    ((readReg s .status).getLsbD 0 = true ↔ s.phase = .busy) ∧
    (readReg s .status).getLsbD 1 = s.status.done ∧
    (s.status.err, (readReg s .status).toNat / 16 % 16) ∈
      [(ErrCode.ok, 0), (.messageTooLarge, 1), (.capacityExceeded, 2), (.invalidOrUnencoded, 3),
        (.illegalCmd, 4), (.range, 5), (.overlap, 6)] ∧
    (readReg s .status).getLsbD 8 = s.status.warnUtf8 ∧
    (readReg s .status).getLsbD 9 = s.status.ovr ∧
    (readReg s .status).getLsbD 16 = s.status.rej

/-- R25: a host write at the offset of an operand register, BUSY or not, sets that register to the value written,
unchecked, and nothing else; the register then reads as the value, and every other register as before. -/
def Obligations.HostWritesOperand : Prop :=
  ∀ (s t : State) (off : Nat) (r : RegName) (v : Word) (o : Operands),
    (off, r, o) ∈ [(0x18, RegName.msgAddr, { s.operands with msgAddr := v }),
      (0x20, .msgLen, { s.operands with msgLen := v }), (0x28, .srcAddr, { s.operands with srcAddr := v }),
      (0x30, .srcLen, { s.operands with srcLen := v }), (0x38, .dstAddr, { s.operands with dstAddr := v }),
      (0x40, .cap, { s.operands with cap := v })] →
    HostMoves s (.regWrite off 64 v) t → s.hazardFault = false → s.resetLine = false →
    let t' : State := { t with operands := o }
    step s = .next t' ∧ readReg t' r = v ∧ ∀ r', r' ≠ r → readReg t' r' = readReg s r'

/-- R40, R42 (and the copies of R41): acceptance, of any word; an illegal one is rejected only when the engine
completes it. -/
def Obligations.CmdWriteAccepted : Prop :=
  ∀ (s t : State) (v : Word), HostMoves s (.regWrite 0x08 64 v) t →
    s.hazardFault = false → s.resetLine = false → s.phase = .idle →
    let t' : State :=
      { t with
        cmd := v
        lat := { cmd := v, operands := s.operands }
        results := { result := 0, declLen := 0, needed := 0, avail := 0, utilNum := 0, utilDen := 0 }
        status := { done := false, err := .ok, warnUtf8 := false, ovr := false, rej := false }
        footprint := footprintOf s.size { cmd := v, operands := s.operands }
        phase := .busy }
    step s = .next t' ∧
      ∀ (e : State) (why : IllegalWord), decode v = .illegal why → EngineMoves t' e →
        step t' = .next (endsInError e .illegalCmd false {})

/-- R43: rejection. -/
def Obligations.CmdWriteRejected : Prop :=
  ∀ (s t : State) (v : Word), HostMoves s (.regWrite 0x08 64 v) t →
    s.hazardFault = false → s.resetLine = false → s.phase = .busy →
    step s = .next { t with status := { s.status with rej := true } }

/-- R37, R220, I13: the register accesses the spec gives no meaning are refused, by name. `poll` reads STATUS (R101),
so during reset it is refused with the others. -/
def Obligations.RegisterAccessRefused : Prop :=
  ∀ (s t : State) (op : HostOp), HostMoves s op t → s.hazardFault = false →
    (s.resetLine = true →
      (op = .poll ∨ ∃ off width, op = .regRead off width ∨ ∃ v, op = .regWrite off width v) →
      step s = .refused .registerAccessInReset) ∧
    (s.resetLine = false → ∀ off width : Nat,
      (op = .regRead off width ∨ ∃ v, op = .regWrite off width v) →
      width ≠ 64 ∨ off % 8 ≠ 0 ∨ 0xF8 < off → step s = .refused .badRegisterAccess)

/-! ### Data memory (spec/20_memory.md, spec/70_reset_and_hazards.md) -/

/-- R84 (and R63): with reset released, outside the footprint or while IDLE, a host store takes effect and a host load
returns the byte last written. That a load while IDLE returns the byte even where the host has not read DONE since the
last completion (R77, R230) is the model's inference (assumption log 7). -/
def Obligations.HostMemoryOutsideFootprint : Prop :=
  ∀ (s t : State) (a : Word), a.toNat < s.size → s.hazardFault = false → s.resetLine = false →
    (s.phase = .idle ∨
      (¬ InRanges s.footprint.reads a.toNat ∧ ¬ InRanges s.footprint.writes a.toNat)) →
    (∀ v, HostMoves s (.storeByte a v) t → ∃ t', step s = .next t' ∧ t' = { t with mem := t'.mem } ∧
      ∀ b, t'.mem.read b = if b = a.toNat then v else s.mem.read b) ∧
    (HostMoves s (.loadByte a) t →
      step s = .next { t with received := .byte a (s.mem.read a.toNat) :: s.received })

/-- R228, R49: while BUSY a host write to RS or WS sets HAZARD_FAULT. That the byte keeps its value in that step is
the model's choice (assumption log 4). -/
def Obligations.HostStoreInFootprintIsHazard : Prop :=
  ∀ (s t : State) (a : Word) (v : Byte), a.toNat < s.size → s.hazardFault = false → s.phase = .busy →
    (InRanges s.footprint.reads a.toNat ∨ InRanges s.footprint.writes a.toNat) →
    HostMoves s (.storeByte a v) t → step s = .next { t with hazardFault := true }

/-- R229: while BUSY a host load in WS returns a free byte, drawn afresh; one in RS but not in WS returns the byte in
memory, and so does one outside the footprint. -/
def Obligations.HostLoadDuringBusy : Prop :=
  ∀ (s t : State) (a : Word), a.toNat < s.size → s.hazardFault = false → s.phase = .busy →
    HostMoves s (.loadByte a) t →
    (InRanges s.footprint.writes a.toNat → step s = .next
      { t with
        draws := s.draws + 1
        received := .byte a (Config.freeByte s.draws a.toNat) :: s.received }) ∧
    (¬ InRanges s.footprint.writes a.toNat →
      step s = .next { t with received := .byte a (s.mem.read a.toNat) :: s.received })

/-- R60: data memory holds no byte at or above MEM_SIZE; that a host access there stops with a fault is the model's
choice (assumption log 11). -/
def Obligations.HostAccessOutsideMemoryFaults : Prop :=
  ∀ (s t : State) (a : Word) (v : Byte) (op : HostOp), op = .storeByte a v ∨ op = .loadByte a →
    HostMoves s op t → s.hazardFault = false → s.size ≤ a.toNat → step s = .fault .outsideDataMemory

/-- R49: HAZARD_FAULT is set only by a host write to the footprint of a running command, and no step clears it. -/
def Obligations.HazardFaultSticky : Prop :=
  ∀ s t : State, step s = .next t →
    (s.hazardFault = true → t.hazardFault = true) ∧
    (s.hazardFault = false → t.hazardFault = true →
      s.phase = .busy ∧ ∃ a v, s.host = .storeByte a v :: t.host ∧
        (InRanges s.footprint.reads a.toNat ∨ InRanges s.footprint.writes a.toNat))

/-! ### Completion and progress -/

/-- R44, R95: when the latched word decodes to a command and the engine moves, the step is that command's `exec`. -/
def Obligations.StepRunsDecoded : Prop :=
  ∀ (s t : State) (i : Instr), EngineMoves s t → s.phase = .busy → s.hazardFault = false →
    decode s.lat.cmd = .legal i → step s = exec i t

/-- R96, R198: an illegal word completes with ILLEGAL_CMD; it writes no memory and leaves every result register 0. -/
def Obligations.IllegalWordCompletes : Prop :=
  ∀ (s t : State) (why : IllegalWord), EngineMoves s t → s.phase = .busy → s.hazardFault = false →
    decode s.lat.cmd = .illegal why → step s = .next (endsInError t .illegalCmd false {})

/-- R46: the completion step is enabled whenever phase = BUSY and at no other time. -/
def Obligations.CompletionEnabledExactlyWhenBusy : Prop :=
  ∀ s t : State, EngineMoves s t → s.hazardFault = false →
    (s.phase = .busy → ∃ t', step s = .next t' ∧ t'.phase = .idle ∧ t'.status.done = true) ∧
    (s.phase = .idle → step s = .next t)

/-- R44: every command completes from every state, and completion leaves everything but the result registers, DONE,
ERR, WARN_UTF8, OVR, BUSY, the footprint and memory as it was. -/
def Obligations.CompletionFrame : Prop :=
  ∀ (i : Instr) (s : State), ∃ t, exec i s = .next t ∧
    t.phase = .idle ∧ t.status.done = true ∧ t.status.rej = s.status.rej ∧ t.footprint = {} ∧
    t = { s with
          mem := t.mem
          results := t.results
          status := t.status
          footprint := t.footprint
          phase := t.phase }

/-- R41, R231: a write to an operand register during BUSY does not disturb the running command. -/
def Obligations.OperandWriteCommutesWithCompletion : Prop :=
  ∀ (i : Instr) (s t : State) (r : RegName) (v : Word),
    r ∈ [RegName.msgAddr, .msgLen, .srcAddr, .srcLen, .dstAddr, .cap] →
    exec i s = .next t → exec i (writeReg s v r) = .next (writeReg t v r)

/-- R202: of any completion, of a legal word or an illegal one: an error and a warning never come together, OVR comes
only with INVALID_OR_UNENCODED, and REJ is independent of the outcome. -/
def Obligations.ErrorAndWarningExclusive : Prop :=
  ∀ s e t : State, EngineMoves s e → s.phase = .busy → s.hazardFault = false → step s = .next t →
    (t.status.warnUtf8 = true → t.status.err = .ok) ∧
    (t.status.ovr = true → t.status.err = .invalidOrUnencoded) ∧
    t.status.rej = s.status.rej

/-- R203: a command that completes with an error has written no byte, and has changed nothing beyond STATUS and the
result registers (and the phase and footprint, which every completion clears). -/
def Obligations.ErrorsWriteNothing : Prop :=
  ∀ (i : Instr) (s t : State), exec i s = .next t → t.status.err ≠ .ok →
    t = endsInError s t.status.err t.status.ovr t.results

/-- R33: outside the RESULT bytes from DST_ADDR on, no command changes memory, and CAPACITY changes none at all. -/
def Obligations.CommandsStoreOnlyTheirOutput : Prop :=
  ∀ (i : Instr) (s t : State), exec i s = .next t → ∀ a : Nat,
    (i = .capacity ∨ ¬ (s.lat.operands.dstAddr.toNat ≤ a ∧
      a < s.lat.operands.dstAddr.toNat + t.results.result.toNat)) →
    t.mem.read a = s.mem.read a

/-- R75, R83: the addresses of RS and WS, for each word; and the engine writes only addresses in WS. -/
def Obligations.WritesStayInFootprint : Prop :=
  (∀ (size : Nat) (lat : Latched) (a : Nat),
    let ml := lat.operands.msgLen.toNat
    let n := lat.operands.srcLen.toNat
    let msg := lat.operands.msgAddr.toNat
    let src := lat.operands.srcAddr.toNat
    let d := lat.operands.dstAddr.toNat
    let inside (base len : Nat) : Prop := base ≤ a ∧ a < base + len ∧ a < size
    let rs := InRanges (footprintOf size lat).reads a
    let ws := InRanges (footprintOf size lat).writes a
    match decode lat.cmd with
    | .illegal _ => ¬ rs ∧ ¬ ws
    | .legal .capacity => ¬ rs ∧ ¬ ws
    | .legal (.encodeFrame p) =>
      (rs ↔ ml < 2 ^ 32 ∧ inside msg ml) ∧
        (ws ↔ ml < 2 ^ 32 ∧ inside d (if p then 8 * (4 + ml) else 4 + ml))
    | .legal (.decodeFrame _ _) =>
      (rs ↔ inside src n) ∧ (ws ↔ inside d (min lat.operands.cap.toNat (2 ^ 32 - 1)))
    | .legal .embed =>
      (rs ↔ ml < 2 ^ 32 ∧ 4 + ml ≤ n / 8 ∧ (inside src n ∨ inside msg ml)) ∧
        (ws ↔ ml < 2 ^ 32 ∧ 4 + ml ≤ n / 8 ∧ inside d (if d = src then 8 * (4 + ml) else n))
    | .legal (.extract _) => (rs ↔ inside src n) ∧ (ws ↔ inside d (n / 8))) ∧
  ∀ (i : Instr) (s t : State), decode s.lat.cmd = .legal i → exec i s = .next t →
    ∀ a : Nat, ¬ InRanges (footprintOf s.size s.lat).writes a → t.mem.read a = s.mem.read a

/-- R83, R75, R130: what a command does depends only on the latched operands, MEM_SIZE and the bytes in the read set
of its footprint: two memories that agree there give the same STATUS, the same results and the same bytes written. -/
def Obligations.ReadSetDeterminesOutcome : Prop :=
  ∀ (i : Instr) (s s' t t' : State), s.lat = s'.lat → s.memSize = s'.memSize →
    decode s.lat.cmd = .legal i →
    (∀ a, InRanges (footprintOf s.size s.lat).reads a → s.mem.read a = s'.mem.read a) →
    exec i s = .next t → exec i s' = .next t' →
    t.results = t'.results ∧ t.status.err = t'.status.err ∧ t.status.warnUtf8 = t'.status.warnUtf8 ∧
      t.status.ovr = t'.status.ovr ∧
      ∀ a, (t.mem.read a = s.mem.read a ∧ t'.mem.read a = s'.mem.read a) ∨ t.mem.read a = t'.mem.read a

/-- R101: `poll` ends after finitely many reads, however long the host holds the engine off. -/
def Obligations.PollEnds : Prop :=
  ∀ (n : Nat) (s : State) (rest : List HostOp), s.phase = .busy → s.hazardFault = false → s.resetLine = false →
    s.host = .poll :: rest → s.turns = List.replicate n .host →
    ∃ t w, Host.Core.run Sys2Proof.core (n + 2) s = .next t ∧ t.host = rest ∧ t.phase = .idle ∧
      t.received.head? = some (.reg 0x10 w) ∧ w.getLsbD 0 = false ∧
      t.received.length = s.received.length + n + 1

/-! ### The invariant -/

/-- Every step keeps the invariant of Safety.lean. -/
def Obligations.EveryStepKeepsInvariant : Prop :=
  ∀ s t : State, Invariant s → step s = .next t → Invariant t

/-- R50: the state after reset meets the invariant, for every MEM_SIZE. -/
def Obligations.ResetMeetsInvariant : Prop :=
  Invariant State.reset ∧ ∀ n, Invariant (State.resetWith n)

/-- R8: no step changes MEM_SIZE. -/
def Obligations.MemSizeFixed : Prop :=
  ∀ s t : State, step s = .next t → t.memSize = s.memSize

/-! ### Reset (spec/70_reset_and_hazards.md) -/

/-- R50, R220, R221, R222: from any state, reset puts every piece of block state to its value, leaves HAZARD_FAULT
alone, and changes no byte of memory but those of the abandoned command's WS, each of which takes a free value. -/
def Obligations.ResetFromAnyState : Prop :=
  ∀ (s : State) (rest : List Turn), s.turns = .resetAssert :: rest →
    ∃ t, step s = .next t ∧
      (∀ r, readReg t r = if r = .id then 0x46434C4200000001#64 else 0#64) ∧
      t.phase = .idle ∧ t.lat = {} ∧ t.footprint = {} ∧ t.hazardFault = s.hazardFault ∧
      t.memSize = s.memSize ∧ t.host = s.host ∧ t.received = s.received ∧ t.turns = rest ∧
      ∀ a, t.mem.read a =
        if InRanges s.footprint.writes a then Config.freeByte s.draws a else s.mem.read a

/-- R224, R223: after reset the block waits, and the first CMD write is accepted. -/
def Obligations.FirstCommandAfterReset : Prop :=
  ∀ (s : State) (v : Word) (rest : List HostOp) (ts : List Turn), s.hazardFault = false →
    s.turns = .resetAssert :: .resetRelease :: .host :: ts → s.host = .regWrite 0x08 64 v :: rest →
    ∃ t, Host.Core.run Sys2Proof.core 3 s = .next t ∧ t.phase = .busy ∧ readReg t .cmd = v ∧
      t.lat = { cmd := v, operands := {} } ∧ readReg t .status = 1#64

/-- R50: the values of the register map and of the hidden state after reset. -/
def Obligations.ResetValues : Prop :=
  (∀ r, readReg State.reset r = if r = .id then 0x46434C4200000001#64 else 0#64) ∧
  State.reset.phase = .idle ∧ State.reset.lat = {} ∧ State.reset.footprint = {} ∧ State.reset.hazardFault = false

/-! ### The frame codec, as functions (spec/40_frame_codec.md) -/

/-- R113: the length and the bits of an expansion. -/
def Obligations.ExpandBits : Prop :=
  ∀ s : Bytes, (expand s).length = 8 * s.length ∧
    ∀ (j k : Nat) (b : Byte), s[j]? = some b → k ≤ 7 → (expand s)[8 * j + k]? = some (b.getLsbD (7 - k))

/-- R114: regrouping and expansion undo each other, and a byte's first bit is its most significant one. -/
def Obligations.RegroupExpand : Prop :=
  (∀ s : Bytes, regroup (expand s) = s) ∧
  (∀ t : Bits, t.length % 8 = 0 → expand (regroup t) = t ∧ (regroup t).length = t.length / 8)

/-- R111: the value of a header, and that it inverts be32. -/
def Obligations.HeaderValue : Prop :=
  (∀ h : Bits, h.length = 32 →
    headerValue h = ((List.range 32).map (fun k => (h.getD k false).toNat * 2 ^ (31 - k))).sum ∧
    headerValue h ≤ 2 ^ 32 - 1) ∧
  (∀ len : Nat, len < 2 ^ 32 → headerValue (expand (be32 len)) = len)

/-- R129: the length invariants. -/
def Obligations.FrameLengths : Prop :=
  ∀ m : Bytes, (frame m).length = 4 + m.length ∧
    ∀ t, encodeFrame m = .ok t → t.length = 8 * (frame m).length

/-- R116, R117: encoding fails exactly when the length does not fit 32 bits. -/
def Obligations.MessageTooLargeExactly : Prop :=
  ∀ m : Bytes, (encodeFrame m = .error { err := .messageTooLarge } ↔ 2 ^ 32 ≤ m.length) ∧
    (m.length < 2 ^ 32 → encodeFrame m = .ok (expand (frame m)))

/-- R128, first half: decoding an encoded frame, with any bits after it, gives the message back. -/
def Obligations.FrameRoundTrip : Prop :=
  ∀ (m : Bytes) (rest : Bits) (cap : Nat), m.length < 2 ^ 32 → m.length ≤ cap →
    ∃ t, encodeFrame m = .ok t ∧ decodeFrame (t ++ rest) cap = .ok (m, m.length)

/-- R121: bits at positions 32 + 8 * L and beyond do not affect the result, be it a message or an error. -/
def Obligations.TrailingBitsIgnored : Prop :=
  ∀ (t rest : Bits) (cap : Nat),
    let len := headerValue (t.take 32)
    32 + 8 * len ≤ t.length → decodeFrame (t.take (32 + 8 * len) ++ rest) cap = decodeFrame t cap

/-- R122: a sequence is valid UTF-8 when it splits into sequences that each match one row of the table, byte for
byte. -/
def Obligations.Utf8ValidIsSplitting : Prop :=
  ∀ m : Bytes, Config.utf8Valid m = true ↔
    ∃ parts : List Bytes, parts.flatten = m ∧ ∀ q ∈ parts, ∃ row : List (Nat × Nat),
      row ∈ [[(0x00, 0x7F)],
        [(0xC2, 0xDF), (0x80, 0xBF)],
        [(0xE0, 0xE0), (0xA0, 0xBF), (0x80, 0xBF)],
        [(0xE1, 0xEC), (0x80, 0xBF), (0x80, 0xBF)],
        [(0xED, 0xED), (0x80, 0x9F), (0x80, 0xBF)],
        [(0xEE, 0xEF), (0x80, 0xBF), (0x80, 0xBF)],
        [(0xF0, 0xF0), (0x90, 0xBF), (0x80, 0xBF), (0x80, 0xBF)],
        [(0xF1, 0xF3), (0x80, 0xBF), (0x80, 0xBF), (0x80, 0xBF)],
        [(0xF4, 0xF4), (0x80, 0x8F), (0x80, 0xBF), (0x80, 0xBF)]] ∧
      List.Forall₂ (fun (col : Nat × Nat) (b : Byte) => col.1 ≤ b.toNat ∧ b.toNat ≤ col.2) row q

/-! ### The frame codec commands -/

/-- R126: ENCODE_FRAME when its checks pass. Packed, the output is byte for byte the header and the message (R124);
unpacked, one bit a byte (R125). -/
def Obligations.EncodeFrameSucceeds : Prop :=
  ∀ (p : Bool) (s : State),
    let a := s.lat.operands.msgAddr.toNat
    let ml := s.lat.operands.msgLen.toNat
    let d := s.lat.operands.dstAddr.toNat
    let outlen := if p then 8 * (4 + ml) else 4 + ml
    let m := s.mem.readBytes a ml
    ml < 2 ^ 32 → InMem s.size a ml → InMem s.size d outlen → ¬ Overlaps d outlen a ml →
    exec (.encodeFrame p) s = .next (endsInSuccess s
      (s.mem.writeBytes d (if p then (expand (be32 ml ++ m)).map bitByte else be32 ml ++ m)) false
      { result := BitVec.ofNat 64 outlen })

/-- R126, R201: ENCODE_FRAME's errors, in their order; with what the two range tests of every command say, byte for
byte (R69, R70). -/
def Obligations.EncodeFrameErrors : Prop :=
  (∀ size a n : Nat, InMem size a n ↔ ∀ x, a ≤ x → x < a + n → x < size) ∧
  (∀ a n b m : Nat, Overlaps a n b m ↔ ∃ x, (a ≤ x ∧ x < a + n) ∧ (b ≤ x ∧ x < b + m)) ∧
  ∀ (p : Bool) (s : State),
    let a := s.lat.operands.msgAddr.toNat
    let ml := s.lat.operands.msgLen.toNat
    let d := s.lat.operands.dstAddr.toNat
    let outlen := if p then 8 * (4 + ml) else 4 + ml
    (2 ^ 32 ≤ ml → exec (.encodeFrame p) s = .next (endsInError s .messageTooLarge false {})) ∧
    (ml < 2 ^ 32 → ¬ (InMem s.size a ml ∧ InMem s.size d outlen) →
      exec (.encodeFrame p) s = .next (endsInError s .range false {})) ∧
    (ml < 2 ^ 32 → InMem s.size a ml → InMem s.size d outlen → Overlaps d outlen a ml →
      exec (.encodeFrame p) s = .next (endsInError s .overlap false {}))

/-- R127, R124: a packed DECODE_FRAME when its checks pass: the declared length is the big-endian value of the first
four bytes (R65), and the payload is the bytes after them. -/
def Obligations.DecodePackedSucceeds : Prop :=
  ∀ (u : Bool) (s : State),
    let src := s.lat.operands.srcAddr.toNat
    let n := s.lat.operands.srcLen.toNat
    let d := s.lat.operands.dstAddr.toNat
    let len := (s.mem.read src).toNat * 2 ^ 24 + (s.mem.read (src + 1)).toNat * 2 ^ 16
      + (s.mem.read (src + 2)).toNat * 2 ^ 8 + (s.mem.read (src + 3)).toNat
    let m := s.mem.readBytes (src + 4) len
    InMem s.size src n → len ≤ s.lat.operands.cap.toNat → 4 + len ≤ n →
    InMem s.size d len → ¬ Overlaps d len src n →
    exec (.decodeFrame false u) s = .next (endsInSuccess s (s.mem.writeBytes d m)
      (u && !Config.utf8Valid m) { result := BitVec.ofNat 64 len, declLen := BitVec.ofNat 64 len })

/-- R127, R125: an unpacked DECODE_FRAME when its checks pass: bit 0 of each byte is one bit of the frame. -/
def Obligations.DecodeUnpackedSucceeds : Prop :=
  ∀ (u : Bool) (s : State),
    let src := s.lat.operands.srcAddr.toNat
    let n := s.lat.operands.srcLen.toNat
    let d := s.lat.operands.dstAddr.toNat
    let len := headerValue (lsbPlane (s.mem.readBytes src 32))
    let m := regroup (lsbPlane (s.mem.readBytes (src + 32) (8 * len)))
    InMem s.size src n → len ≤ s.lat.operands.cap.toNat → 32 + 8 * len ≤ n →
    InMem s.size d len → ¬ Overlaps d len src n →
    exec (.decodeFrame true u) s = .next (endsInSuccess s (s.mem.writeBytes d m)
      (u && !Config.utf8Valid m) { result := BitVec.ofNat 64 len, declLen := BitVec.ofNat 64 len })

/-- R127, R196, R201: DECODE_FRAME's errors, in their order, with what each records. -/
def Obligations.DecodeFrameErrors : Prop :=
  ∀ (p u : Bool) (s : State),
    let src := s.lat.operands.srcAddr.toNat
    let n := s.lat.operands.srcLen.toNat
    let d := s.lat.operands.dstAddr.toNat
    let cap := s.lat.operands.cap.toNat
    let t := loadStream p (s.mem.readBytes src n)
    let len := headerValue (t.take 32)
    let info : Results := { declLen := BitVec.ofNat 64 len }
    let ends (e : ErrCode) (ovr : Bool) (regs : Results) : Prop :=
      exec (.decodeFrame p u) s = .next (endsInError s e ovr regs)
    (¬ InMem s.size src n → ends .range false {}) ∧
    (InMem s.size src n → t.length < 32 → ends .invalidOrUnencoded true {}) ∧
    (InMem s.size src n → 32 ≤ t.length → cap < len → ends .invalidOrUnencoded false info) ∧
    (InMem s.size src n → 32 ≤ t.length → len ≤ cap → t.length < 32 + 8 * len →
      ends .invalidOrUnencoded true info) ∧
    (InMem s.size src n → 32 + 8 * len ≤ t.length → len ≤ cap → ¬ InMem s.size d len →
      ends .range false info) ∧
    (InMem s.size src n → 32 + 8 * len ≤ t.length → len ≤ cap → InMem s.size d len →
      Overlaps d len src n → ends .overlap false info)

/-- R128 on memory: ENCODE_FRAME with form P, then DECODE_FRAME of the same form on its output range with
CAP >= MSG_LEN, writes the message back. -/
def Obligations.FrameRoundTripOnMemory : Prop :=
  ∀ (p u : Bool) (s t s' : State),
    let a := s.lat.operands.msgAddr.toNat
    let ml := s.lat.operands.msgLen.toNat
    exec (.encodeFrame p) s = .next t → t.status.err = .ok →
    s'.mem = t.mem → s'.memSize = s.memSize →
    s'.lat.operands.srcAddr = s.lat.operands.dstAddr → s'.lat.operands.srcLen = t.results.result →
    ml ≤ s'.lat.operands.cap.toNat → InMem s.size s'.lat.operands.dstAddr.toNat ml →
    ¬ Overlaps s'.lat.operands.dstAddr.toNat ml s'.lat.operands.srcAddr.toNat s'.lat.operands.srcLen.toNat →
    ∃ t', exec (.decodeFrame p u) s' = .next t' ∧ t'.status.err = .ok ∧
      t'.results.result = s.lat.operands.msgLen ∧
      t'.mem.readBytes s'.lat.operands.dstAddr.toNat ml = s.mem.readBytes a ml

/-! ### The pixel plane (spec/41_pixel_plane.md) -/

/-- R160: CAPACITY. Its only word is 0x01, it cannot fail, and its result depends on SRC_LEN alone. -/
def Obligations.CapacityReports : Prop :=
  decode 0x01#64 = .legal .capacity ∧
  (∀ w : Word, w.toNat % 16 = 1 → w ≠ 0x01#64 → ∃ why, decode w = .illegal why) ∧
  ∀ s : State, exec .capacity s = .next (endsInSuccess s s.mem false
    { result := BitVec.ofNat 64 (s.lat.operands.srcLen.toNat / 8) })

/-- R155, R156, R164, R166: what an embed does to each element. -/
def Obligations.EmbedElements : Prop :=
  ∀ (buf m out : Bytes), embedPixels buf m = .ok out →
    out.length = buf.length ∧
    ∀ (i : Nat) (b o : Byte), buf[i]? = some b → out[i]? = some o →
      (8 * (4 + m.length) ≤ i → o = b) ∧
      (∀ bit, (expand (be32 m.length ++ m))[i]? = some bit → o = (b &&& 0xFE#8) ||| bitByte bit) ∧
      o >>> 1 = b >>> 1 ∧ o.toNat ≤ b.toNat + 1 ∧ b.toNat ≤ o.toNat + 1

/-- R163 (for a message whose length fits the header, R117): extracting from an embedded buffer gives the message
back. -/
def Obligations.EmbedExtractRoundTrip : Prop :=
  ∀ buf m : Bytes, m.length < 2 ^ 32 → 4 + m.length ≤ buf.length / 8 →
    ∃ out, embedPixels buf m = .ok out ∧ extractPixels out = .ok (m, m.length)

/-- R161: EMBED when its checks pass, in place or as a copy: the registers, and every byte of memory. -/
def Obligations.EmbedSucceeds : Prop :=
  ∀ s : State,
    let src := s.lat.operands.srcAddr.toNat
    let n := s.lat.operands.srcLen.toNat
    let a := s.lat.operands.msgAddr.toNat
    let ml := s.lat.operands.msgLen.toNat
    let d := s.lat.operands.dstAddr.toNat
    let f := 4 + ml
    let wlen := if d = src then 8 * f else n
    let bits := expand (be32 ml ++ s.mem.readBytes a ml)
    ml < 2 ^ 32 → f ≤ n / 8 → InMem s.size src n → InMem s.size a ml → InMem s.size d wlen →
    ¬ Overlaps d wlen a ml → (d = src ∨ ¬ Overlaps d n src n) →
    ∃ mem', exec .embed s = .next (endsInSuccess s mem' false
        { result := BitVec.ofNat 64 wlen, needed := BitVec.ofNat 64 f, avail := BitVec.ofNat 64 (n / 8),
          utilNum := BitVec.ofNat 64 (8 * f), utilDen := BitVec.ofNat 64 (8 * (n / 8)) }) ∧
      (∀ i, i < n → mem'.read (d + i) =
        if i < 8 * f then (s.mem.read (src + i) &&& 0xFE#8) ||| bitByte (bits.getD i false)
        else s.mem.read (src + i)) ∧
      (∀ b, ¬ (d ≤ b ∧ b < d + wlen) → mem'.read b = s.mem.read b)

/-- R161, R201: EMBED's errors, in their order, with what each records. -/
def Obligations.EmbedErrors : Prop :=
  ∀ s : State,
    let src := s.lat.operands.srcAddr.toNat
    let n := s.lat.operands.srcLen.toNat
    let a := s.lat.operands.msgAddr.toNat
    let ml := s.lat.operands.msgLen.toNat
    let d := s.lat.operands.dstAddr.toNat
    let wlen := if d = src then 8 * (4 + ml) else n
    let info : Results := { needed := BitVec.ofNat 64 (4 + ml), avail := BitVec.ofNat 64 (n / 8) }
    let ends (e : ErrCode) (regs : Results) : Prop := exec .embed s = .next (endsInError s e false regs)
    (2 ^ 32 ≤ ml → ends .messageTooLarge {}) ∧
    (ml < 2 ^ 32 → n / 8 < 4 + ml → ends .capacityExceeded info) ∧
    (ml < 2 ^ 32 → 4 + ml ≤ n / 8 →
      ¬ (InMem s.size src n ∧ InMem s.size a ml ∧ InMem s.size d wlen) → ends .range info) ∧
    (ml < 2 ^ 32 → 4 + ml ≤ n / 8 → InMem s.size src n → InMem s.size a ml → InMem s.size d wlen →
      (Overlaps d wlen a ml ∨ (d ≠ src ∧ Overlaps d n src n)) → ends .overlap info)

/-- R162: EXTRACT when its checks pass. -/
def Obligations.ExtractSucceeds : Prop :=
  ∀ (u : Bool) (s : State),
    let src := s.lat.operands.srcAddr.toNat
    let n := s.lat.operands.srcLen.toNat
    let d := s.lat.operands.dstAddr.toNat
    let len := headerValue (lsbPlane (s.mem.readBytes src 32))
    let m := regroup (lsbPlane (s.mem.readBytes (src + 32) (8 * len)))
    InMem s.size src n → 32 + 8 * len ≤ n → InMem s.size d len → ¬ Overlaps d len src n →
    exec (.extract u) s = .next (endsInSuccess s (s.mem.writeBytes d m)
      (u && !Config.utf8Valid m) { result := BitVec.ofNat 64 len, declLen := BitVec.ofNat 64 len })

/-- R162, R196, R201: EXTRACT's errors, in their order, with what each records. -/
def Obligations.ExtractErrors : Prop :=
  ∀ (u : Bool) (s : State),
    let src := s.lat.operands.srcAddr.toNat
    let n := s.lat.operands.srcLen.toNat
    let d := s.lat.operands.dstAddr.toNat
    let len := headerValue (lsbPlane (s.mem.readBytes src 32))
    let info : Results := { declLen := BitVec.ofNat 64 len }
    let ends (e : ErrCode) (ovr : Bool) (regs : Results) : Prop :=
      exec (.extract u) s = .next (endsInError s e ovr regs)
    (¬ InMem s.size src n → ends .range false {}) ∧
    (InMem s.size src n → n < 32 → ends .invalidOrUnencoded true {}) ∧
    (InMem s.size src n → 32 ≤ n → n / 8 < len → ends .invalidOrUnencoded false info) ∧
    (InMem s.size src n → 32 ≤ n → n / 8 < len + 4 → len ≤ n / 8 → ends .invalidOrUnencoded true info) ∧
    (InMem s.size src n → 32 + 8 * len ≤ n → ¬ InMem s.size d len → ends .range false info) ∧
    (InMem s.size src n → 32 + 8 * len ≤ n → InMem s.size d len → Overlaps d len src n →
      ends .overlap false info)

/-- R165: EMBED gets past the capacity test exactly when the frame fits. -/
def Obligations.EmbedCapacityBoundary : Prop :=
  ∀ s t : State, s.lat.operands.msgLen.toNat < 2 ^ 32 → exec .embed s = .next t →
    (t.status.err = .capacityExceeded ↔
      ¬ (4 + s.lat.operands.msgLen.toNat ≤ s.lat.operands.srcLen.toNat / 8))

/-- R167: EXTRACT is DECODE_FRAME on the unpacked form with CAP = SRC_LEN div 8. -/
def Obligations.ExtractIsUnpackedDecode : Prop :=
  ∀ (u : Bool) (s s' t t' : State), s'.mem = s.mem → s'.memSize = s.memSize →
    s'.lat.operands.srcAddr = s.lat.operands.srcAddr → s'.lat.operands.srcLen = s.lat.operands.srcLen →
    s'.lat.operands.dstAddr = s.lat.operands.dstAddr →
    s'.lat.operands.cap.toNat = s.lat.operands.srcLen.toNat / 8 → s'.status.rej = s.status.rej →
    exec (.extract u) s = .next t → exec (.decodeFrame true u) s' = .next t' →
    t'.mem = t.mem ∧ readReg t' .status = readReg t .status ∧ t'.results = t.results

/-- R168: a buffer of 32 or more elements whose first 32 LSBs are 0 extracts as the empty message. -/
def Obligations.ZeroHeaderIsEmptyMessage : Prop :=
  ∀ (u : Bool) (s : State), 32 ≤ s.lat.operands.srcLen.toNat →
    InMem s.size s.lat.operands.srcAddr.toNat s.lat.operands.srcLen.toNat →
    (∀ i, i < 32 → (s.mem.read (s.lat.operands.srcAddr.toNat + i)).getLsbD 0 = false) →
    exec (.extract u) s = .next (endsInSuccess s s.mem false {})

/-- R163 on memory: EMBED, in place or as a copy, then EXTRACT from its output buffer, writes the message back. -/
def Obligations.EmbedExtractOnMemory : Prop :=
  ∀ (u : Bool) (s t s' : State),
    let a := s.lat.operands.msgAddr.toNat
    let ml := s.lat.operands.msgLen.toNat
    exec .embed s = .next t → t.status.err = .ok →
    s'.mem = t.mem → s'.memSize = s.memSize →
    s'.lat.operands.srcAddr = s.lat.operands.dstAddr → s'.lat.operands.srcLen = s.lat.operands.srcLen →
    InMem s.size s'.lat.operands.dstAddr.toNat ml →
    ¬ Overlaps s'.lat.operands.dstAddr.toNat ml s'.lat.operands.srcAddr.toNat s'.lat.operands.srcLen.toNat →
    ∃ t', exec (.extract u) s' = .next t' ∧ t'.status.err = .ok ∧
      t'.results.result = s.lat.operands.msgLen ∧
      t'.mem.readBytes s'.lat.operands.dstAddr.toNat ml = s.mem.readBytes a ml

/-! ### The end of a run (spec/70_reset_and_hazards.md) -/

/-- R237, R212: at the end of a run the machine does nothing; a run whose host has finished while a command is BUSY
is not over, and its next step ends it. -/
def Obligations.EndOfRunIsQuiet : Prop :=
  ∀ s : State, s.turns = [] →
    (GoodEnd s → step s = .next s) ∧
    (s.host = [] → s.phase = .busy → s.hazardFault = false → ∃ t, step s = .next t ∧ GoodEnd t ∧ t.turns = [])
end

