-- ==== Sys2Proof/Laws/Codec.lean ====
section
/-! SUPPORT. Small facts of the codec's pure functions: lengths, one byte at a time, and what the value of a
concatenation of bits is. -/

namespace Sys2Proof.Machine

/-! ### Lengths -/

@[simp] theorem length_be32 (len : Nat) : (be32 len).length = 4 := rfl

@[simp] theorem length_bitsOfByte (b : Byte) : (bitsOfByte b).length = 8 := rfl

@[simp] theorem expand_nil : expand [] = [] := rfl

@[simp] theorem expand_cons (b : Byte) (s : Bytes) : expand (b :: s) = bitsOfByte b ++ expand s := by
  simp [expand]

@[simp] theorem expand_append (s r : Bytes) : expand (s ++ r) = expand s ++ expand r := by
  simp [expand]

theorem length_expand (s : Bytes) : (expand s).length = 8 * s.length := by
  induction s with
  | nil => rfl
  | cons b s ih => simp only [expand_cons, List.length_append, length_bitsOfByte, ih, List.length_cons]; omega

@[simp] theorem length_lsbPlane (s : Bytes) : (lsbPlane s).length = s.length := by simp [lsbPlane]

theorem length_writePlane (buf : Bytes) (bits : Bits) : (writePlane buf bits).length = buf.length := by
  induction buf generalizing bits with
  | nil => cases bits <;> rfl
  | cons b buf ih => cases bits <;> simp [writePlane, ih]

/-! ### One byte and its bits -/

theorem byteOfBits_bitsOfByte (b : Byte) : byteOfBits (bitsOfByte b) = b := by
  revert b; decide

theorem bitsOfByte_byteOfBits (b7 b6 b5 b4 b3 b2 b1 b0 : Bool) :
    bitsOfByte (byteOfBits [b7, b6, b5, b4, b3, b2, b1, b0]) = [b7, b6, b5, b4, b3, b2, b1, b0] := by
  revert b7 b6 b5 b4 b3 b2 b1 b0; decide

theorem headerValue_bitsOfByte (b : Byte) : headerValue (bitsOfByte b) = b.toNat := by
  revert b; decide

theorem setLsb_bit (b : Byte) (bit : Bool) : (setLsb b bit).getLsbD 0 = bit := by
  revert b bit; decide

theorem bitByte_bit (bit : Bool) : (bitByte bit).getLsbD 0 = bit := by
  revert bit; decide

/-- A stored unpacked stream reads back as itself (R125). -/
theorem lsbPlane_map_bitByte (t : Bits) : lsbPlane (t.map bitByte) = t := by
  induction t with
  | nil => rfl
  | cons b t ih =>
    simp only [lsbPlane, List.map_cons] at ih ⊢
    rw [bitByte_bit, ih]

/-! ### The value of a sequence of bits -/

theorem headerValue_append (h g : Bits) : headerValue (h ++ g) = headerValue h * 2 ^ g.length + headerValue g := by
  have key : ∀ (g : Bits) (acc : Nat), g.foldl (fun acc b => 2 * acc + b.toNat) acc
      = acc * 2 ^ g.length + g.foldl (fun acc b => 2 * acc + b.toNat) 0 := by
    intro g
    induction g with
    | nil => intro acc; simp
    | cons b g ih =>
      intro acc
      rw [List.foldl_cons, List.foldl_cons, ih, ih (2 * 0 + b.toNat), List.length_cons, Nat.pow_succ]
      ring
  rw [headerValue, List.foldl_append, key]
  rfl

theorem headerValue_lt (h : Bits) : headerValue h < 2 ^ h.length := by
  induction h using List.reverseRecOn with
  | nil => simp [headerValue]
  | append_singleton h b ih =>
    have : headerValue [b] ≤ 1 := by cases b <;> decide
    rw [headerValue_append, List.length_append, List.length_singleton, Nat.pow_succ]
    omega

/-- The big-endian value of a header's four bytes (R65, R111). -/
theorem headerValue_expand_four (b0 b1 b2 b3 : Byte) : headerValue (expand [b0, b1, b2, b3])
    = b0.toNat * 2 ^ 24 + b1.toNat * 2 ^ 16 + b2.toNat * 2 ^ 8 + b3.toNat := by
  simp only [expand_cons, expand_nil, List.append_nil, headerValue_append, headerValue_bitsOfByte,
    List.length_append, length_bitsOfByte]
  ring

/-! ### Regrouping, byte by byte -/

/-- `regroup` takes the bits of a byte off the front. -/
theorem regroup_bitsOfByte_append (b : Byte) (t : Bits) : regroup (bitsOfByte b ++ t) = b :: regroup t := by
  have h := byteOfBits_bitsOfByte b
  simp only [bitsOfByte, List.cons_append, List.nil_append, regroup] at h ⊢
  rw [h]

theorem regroup_expand_append (s : Bytes) (t : Bits) : regroup (expand s ++ t) = s ++ regroup t := by
  induction s with
  | nil => rfl
  | cons b s ih => rw [expand_cons, List.append_assoc, regroup_bitsOfByte_append, ih, List.cons_append]

theorem regroup_of_short {t : Bits} (h : t.length < 8) : regroup t = [] := by
  unfold regroup
  split
  · simp only [List.length_cons] at h
    omega
  · rfl

theorem length_regroup (t : Bits) : (regroup t).length = t.length / 8 := by
  induction t using regroup.induct with
  | case1 b7 b6 b5 b4 b3 b2 b1 b0 rest ih =>
    simp only [regroup, List.length_cons, ih]
    omega
  | case2 t h =>
    have : t.length < 8 := by
      rcases t with _ | ⟨b7, _ | ⟨b6, _ | ⟨b5, _ | ⟨b4, _ | ⟨b3, _ | ⟨b2, _ | ⟨b1, _ | ⟨b0, rest⟩⟩⟩⟩⟩⟩⟩⟩
      all_goals first
        | exact (h _ _ _ _ _ _ _ _ _ rfl).elim
        | simp only [List.length_cons, List.length_nil]; omega
    rw [regroup_of_short this, List.length_nil]
    omega

/-! ### The decoder -/

/-- What `decodeFrame` answers, and when (R118). -/
theorem decodeFrame_spec (t : Bits) (cap : Nat) :
    (t.length < 32 ∧ decodeFrame t cap = .error (unencoded true 0)) ∨
    (32 ≤ t.length ∧ cap < headerValue (t.take 32) ∧
      decodeFrame t cap = .error (unencoded false (headerValue (t.take 32)))) ∨
    (32 ≤ t.length ∧ headerValue (t.take 32) ≤ cap ∧ t.length < 32 + 8 * headerValue (t.take 32) ∧
      decodeFrame t cap = .error (unencoded true (headerValue (t.take 32)))) ∨
    (32 + 8 * headerValue (t.take 32) ≤ t.length ∧ headerValue (t.take 32) ≤ cap ∧
      decodeFrame t cap = .ok
        (regroup ((t.drop 32).take (8 * headerValue (t.take 32))), headerValue (t.take 32))) := by
  unfold decodeFrame
  by_cases h1 : t.length < 32
  · exact Or.inl ⟨h1, by rw [if_pos h1]⟩
  · by_cases h2 : cap < headerValue (t.take 32)
    · exact Or.inr (Or.inl ⟨by omega, h2, by simp only [if_neg h1, if_pos h2]⟩)
    · by_cases h3 : t.length < 32 + 8 * headerValue (t.take 32)
      · exact Or.inr (Or.inr (Or.inl ⟨by omega, by omega, h3, by simp only [if_neg h1, if_neg h2, if_pos h3]⟩))
      · exact Or.inr (Or.inr (Or.inr ⟨by omega, by omega, by simp only [if_neg h1, if_neg h2, if_neg h3]⟩))

/-- The declared length of any header fits 32 bits. -/
theorem headerValue_take_lt (t : Bits) : headerValue (t.take 32) < 2 ^ 32 := by
  refine Nat.lt_of_lt_of_le (headerValue_lt _) (Nat.pow_le_pow_right (by omega) ?_)
  simp

/-- A message whose length fits the header is encoded (R116). -/
theorem encodeFrame_of_fits {m : Bytes} (h : m.length < 2 ^ 32) : encodeFrame m = .ok (expand (frame m)) := by
  rw [encodeFrame, if_neg (by omega)]

end Sys2Proof.Machine
end

