-- ==== Sys2Proof/Laws/Memory.lean ====
section
/-! SUPPORT. Data memory: a read after a write to the same address gives the byte written, a write leaves every other
address alone, and every memory operation keeps the canonical form. None of these but the last needs the canonical
form as a premise. -/

namespace Sys2Proof.Machine

/-! ### One byte -/

theorem Memory.read_erase (m : Memory) (a b : Nat) :
    (m.erase a).read b = if b = a then Config.unlistedByte else m.read b := by
  induction m with
  | nil => simp [Memory.erase, Memory.read]
  | cons c rest ih =>
    obtain ⟨k, x⟩ := c
    by_cases hk : a = k
    · subst hk
      simp only [Memory.erase, if_true, ih, Memory.read]
      split <;> rfl
    · simp only [Memory.erase, if_neg hk, Memory.read, ih]
      by_cases hb : b = k
      · subst hb; simp [Ne.symm hk]
      · simp [hb]

theorem Memory.fresh_erase (m : Memory) (a : Nat) : ∀ c ∈ m.erase a, c.1 ≠ a := by
  induction m with
  | nil => simp [Memory.erase]
  | cons c rest ih =>
    obtain ⟨k, x⟩ := c
    by_cases hk : a = k
    · simpa only [Memory.erase, if_pos hk] using ih
    · simp only [Memory.erase, if_neg hk, List.mem_cons]
      rintro c (rfl | hc)
      · exact Ne.symm hk
      · exact ih c hc

theorem Memory.read_place (m : Memory) (a b : Nat) (v : Byte) (fresh : ∀ c ∈ m, c.1 ≠ a) :
    (m.place a v).read b = if b = a then v else m.read b := by
  induction m with
  | nil => simp [Memory.place, Memory.read]
  | cons c rest ih =>
    obtain ⟨k, x⟩ := c
    have hk : k ≠ a := fresh (k, x) List.mem_cons_self
    by_cases hlt : a < k
    · simp [Memory.place, hlt, Memory.read]
    · simp only [Memory.place, if_neg hlt, Memory.read, ih fun c hc => fresh c (List.mem_cons_of_mem _ hc)]
      by_cases hb : b = k
      · subst hb; simp [hk]
      · simp [hb]

/-- Read after write, at the same address and at every other one. -/
theorem Memory.read_write (m : Memory) (a b : Nat) (v : Byte) :
    (m.write a v).read b = if b = a then v else m.read b := by
  unfold Memory.write
  split
  · next hv => rw [Memory.read_erase, hv]
  · rw [Memory.read_place _ _ _ _ (m.fresh_erase a), Memory.read_erase]
    split <;> rfl

@[simp] theorem Memory.read_write_same (m : Memory) (a : Nat) (v : Byte) : (m.write a v).read a = v := by
  simp [Memory.read_write]

theorem Memory.read_write_other (m : Memory) {a b : Nat} (v : Byte) (h : b ≠ a) :
    (m.write a v).read b = m.read b := by
  simp [Memory.read_write, h]

/-! ### Sequences of bytes -/

@[simp] theorem Memory.length_readBytes (m : Memory) (a n : Nat) : (m.readBytes a n).length = n := by
  induction n generalizing a with
  | zero => rfl
  | succ n ih => simp [Memory.readBytes, ih]

theorem Memory.getElem_readBytes (m : Memory) (a n i : Nat) (h : i < (m.readBytes a n).length) :
    (m.readBytes a n)[i] = m.read (a + i) := by
  induction n generalizing a i with
  | zero => simp [Memory.readBytes] at h
  | succ n ih =>
    cases i with
    | zero => simp [Memory.readBytes]
    | succ i =>
      simp only [Memory.readBytes, List.getElem_cons_succ]
      rw [ih]
      congr 1
      omega

/-- Two memories that agree on a range give the same bytes there. -/
theorem Memory.readBytes_congr {m m' : Memory} {a n : Nat}
    (h : ∀ b, a ≤ b → b < a + n → m.read b = m'.read b) : m.readBytes a n = m'.readBytes a n := by
  refine List.ext_getElem (by simp) fun i h₁ h₂ => ?_
  rw [Memory.getElem_readBytes, Memory.getElem_readBytes]
  rw [Memory.length_readBytes] at h₁
  exact h _ (by omega) (by omega)

/-- What each address reads as after a sequence of bytes is written. -/
theorem Memory.read_writeBytes (m : Memory) (a : Nat) (s : Bytes) (b : Nat) :
    (m.writeBytes a s).read b = if a ≤ b ∧ b < a + s.length then s.getD (b - a) 0#8 else m.read b := by
  induction s generalizing m a with
  | nil =>
    have : ¬ (a ≤ b ∧ b < a + 0) := by omega
    simp only [Memory.writeBytes, List.length_nil, if_neg this]
  | cons v vs ih =>
    rw [Memory.writeBytes, ih, Memory.read_write]
    by_cases h1 : b = a
    · subst h1
      simp
    · by_cases h2 : a ≤ b ∧ b < a + (v :: vs).length
      · have h3 : a + 1 ≤ b ∧ b < a + 1 + vs.length := by
          simp only [List.length_cons] at h2; omega
        have h4 : b - a = (b - (a + 1)) + 1 := by omega
        rw [if_pos h2, if_pos h3, h4, List.getD_cons_succ]
      · have h3 : ¬ (a + 1 ≤ b ∧ b < a + 1 + vs.length) := by
          simp only [List.length_cons] at h2; omega
        rw [if_neg h2, if_neg h3, if_neg h1]

theorem Memory.read_writeBytes_outside (m : Memory) {a : Nat} {s : Bytes} {b : Nat}
    (h : ¬ (a ≤ b ∧ b < a + s.length)) : (m.writeBytes a s).read b = m.read b := by
  rw [Memory.read_writeBytes, if_neg h]

/-- Reading back a sequence just written. -/
theorem Memory.readBytes_writeBytes (m : Memory) (a : Nat) (s : Bytes) :
    (m.writeBytes a s).readBytes a s.length = s := by
  refine List.ext_getElem (by simp) fun i h₁ h₂ => ?_
  rw [Memory.getElem_readBytes, Memory.read_writeBytes, if_pos ⟨by omega, by omega⟩]
  simp [h₂]

/-- Bytes apart from the range written read back as before. -/
theorem Memory.readBytes_writeBytes_apart (m : Memory) {a b n : Nat} {s : Bytes}
    (h : ¬ Overlaps b n a s.length) : (m.writeBytes a s).readBytes b n = m.readBytes b n := by
  refine Memory.readBytes_congr fun c h₁ h₂ => Memory.read_writeBytes_outside m fun h₃ => h ?_
  exact ⟨by omega, by omega, by omega, by omega⟩

/-! ### The canonical form -/

theorem Memory.mem_of_mem_erase {m : Memory} {a : Nat} {c : Host.Cell} (h : c ∈ m.erase a) : c ∈ m := by
  induction m with
  | nil => simp [Memory.erase] at h
  | cons d rest ih =>
    obtain ⟨k, x⟩ := d
    by_cases hk : a = k
    · simp only [Memory.erase, if_pos hk] at h
      exact List.mem_cons_of_mem _ (ih h)
    · simp only [Memory.erase, if_neg hk, List.mem_cons] at h
      rcases h with rfl | h
      · exact List.mem_cons_self
      · exact List.mem_cons_of_mem _ (ih h)

theorem Memory.mem_place {m : Memory} {a : Nat} {v : Byte} {c : Host.Cell} :
    c ∈ m.place a v ↔ c = (a, v) ∨ c ∈ m := by
  induction m with
  | nil => simp [Memory.place]
  | cons d rest ih =>
    obtain ⟨k, x⟩ := d
    by_cases hlt : a < k
    · simp [Memory.place, hlt]
    · simp only [Memory.place, if_neg hlt, List.mem_cons, ih]
      exact or_left_comm

theorem Memory.wf_nil : Memory.wf [] := by simp [Memory.wf]

theorem Memory.wf_erase {m : Memory} (a : Nat) (h : m.wf) : (m.erase a).wf := by
  refine ⟨?_, fun c hc => h.2 c (Memory.mem_of_mem_erase hc)⟩
  have h1 := h.1
  clear h
  induction m with
  | nil => simp [Memory.erase]
  | cons d rest ih =>
    obtain ⟨k, x⟩ := d
    rw [List.pairwise_cons] at h1
    by_cases hk : a = k
    · simpa only [Memory.erase, if_pos hk] using ih h1.2
    · simp only [Memory.erase, if_neg hk, List.pairwise_cons]
      exact ⟨fun c hc => h1.1 c (Memory.mem_of_mem_erase hc), ih h1.2⟩

theorem Memory.wf_place {m : Memory} {a : Nat} {v : Byte} (h : m.wf) (fresh : ∀ c ∈ m, c.1 ≠ a)
    (hv : v ≠ Config.unlistedByte) : (m.place a v).wf := by
  refine ⟨?_, fun c hc => ?_⟩
  · have h1 := h.1
    clear h
    induction m with
    | nil => simp [Memory.place]
    | cons d rest ih =>
      obtain ⟨k, x⟩ := d
      rw [List.pairwise_cons] at h1
      have hk : k ≠ a := fresh (k, x) List.mem_cons_self
      by_cases hlt : a < k
      · simp only [Memory.place, if_pos hlt, List.pairwise_cons, List.mem_cons]
        refine ⟨?_, h1⟩
        rintro c (rfl | hc)
        · exact hlt
        · exact Nat.lt_trans hlt (h1.1 c hc)
      · simp only [Memory.place, if_neg hlt, List.pairwise_cons]
        refine ⟨fun c hc => ?_, ih (fun c hc => fresh c (List.mem_cons_of_mem _ hc)) h1.2⟩
        rcases Memory.mem_place.1 hc with rfl | hc
        · show k < a
          omega
        · exact h1.1 c hc
  · rcases Memory.mem_place.1 hc with rfl | hc
    · exact hv
    · exact h.2 c hc

/-- A write keeps the canonical form. -/
theorem Memory.wf_write {m : Memory} (a : Nat) (v : Byte) (h : m.wf) : (m.write a v).wf := by
  unfold Memory.write
  split
  · exact Memory.wf_erase a h
  · next hv => exact Memory.wf_place (Memory.wf_erase a h) (m.fresh_erase a) hv

theorem Memory.wf_writeBytes {m : Memory} (a : Nat) (s : Bytes) (h : m.wf) : (m.writeBytes a s).wf := by
  induction s generalizing m a with
  | nil => exact h
  | cons v vs ih => exact ih (a + 1) (Memory.wf_write a v h)

theorem wf_scramble (k : Nat) {m : Memory} (rs : List AddrRange) (h : m.wf) : (scramble k m rs).wf := by
  induction rs generalizing m with
  | nil => exact h
  | cons r rs ih => exact ih (Memory.wf_writeBytes _ _ h)

/-- Memory after reset has the canonical form. -/
theorem wf_reset : State.reset.mem.wf := Memory.wf_nil

/-! ### No entry outside data memory -/

theorem Memory.inside_write {m : Memory} {size a : Nat} (v : Byte) (h : ∀ c ∈ m, c.1 < size) (ha : a < size) :
    ∀ c ∈ m.write a v, c.1 < size := by
  intro c hc
  unfold Memory.write at hc
  split at hc
  · exact h c (Memory.mem_of_mem_erase hc)
  · rcases Memory.mem_place.1 hc with rfl | hc
    · exact ha
    · exact h c (Memory.mem_of_mem_erase hc)

theorem Memory.inside_writeBytes {m : Memory} {size a : Nat} {s : Bytes} (h : ∀ c ∈ m, c.1 < size)
    (ha : InMem size a s.length) : ∀ c ∈ m.writeBytes a s, c.1 < size := by
  induction s generalizing m a with
  | nil => exact h
  | cons v vs ih =>
    simp only [InMem, List.length_cons] at ha
    exact ih (Memory.inside_write v h (by omega)) (by simp only [InMem]; omega)

@[simp] theorem length_freeBytes (k a n : Nat) : (freeBytes k a n).length = n := by
  induction n generalizing a with
  | zero => rfl
  | succ n ih => simp [freeBytes, ih]

theorem getD_freeBytes (k a n i : Nat) (h : i < n) : (freeBytes k a n).getD i 0#8 = Config.freeByte k (a + i) := by
  induction n generalizing a i with
  | zero => omega
  | succ n ih =>
    cases i with
    | zero => simp [freeBytes]
    | succ i =>
      rw [freeBytes, List.getD_cons_succ, ih _ _ (by omega)]
      congr 1
      omega

/-- R221: the addresses of the ranges take the free byte of the draw; every other address reads as before. -/
theorem read_scramble (k : Nat) (m : Memory) (rs : List AddrRange) (b : Nat) :
    (scramble k m rs).read b = if InRanges rs b then Config.freeByte k b else m.read b := by
  induction rs generalizing m with
  | nil => simp [scramble, InRanges]
  | cons r rs ih =>
    rw [scramble, ih, Memory.read_writeBytes, length_freeBytes]
    by_cases h1 : InRanges rs b
    · have : InRanges (r :: rs) b := by
        obtain ⟨q, hq, h⟩ := h1
        exact ⟨q, List.mem_cons_of_mem _ hq, h⟩
      rw [if_pos h1, if_pos this]
    · rw [if_neg h1]
      by_cases h2 : r.base ≤ b ∧ b < r.base + r.size
      · rw [if_pos h2, if_pos ⟨r, List.mem_cons_self, h2⟩, getD_freeBytes _ _ _ _ (by omega)]
        congr 1
        omega
      · rw [if_neg h2, if_neg]
        rintro ⟨q, hq, h⟩
        rcases List.mem_cons.1 hq with rfl | hq
        · exact h2 h
        · exact h1 ⟨q, hq, h⟩

end Sys2Proof.Machine
end

