-- ==== Sys2Proof/Laws/State.lean ====
section
/-! SUPPORT. One lemma per field per update of State: what each shared update writes and what it leaves. -/

namespace Sys2Proof.Machine

/-! ### `complete` -/

@[simp] theorem complete_cmd (s : State) (r : CmdResult) :
    (complete s r).cmd = s.cmd := rfl

@[simp] theorem complete_operands (s : State) (r : CmdResult) :
    (complete s r).operands = s.operands := rfl

@[simp] theorem complete_status (s : State) (r : CmdResult) :
    (complete s r).status = { s.status with done := true, err := r.err, warnUtf8 := r.warnUtf8, ovr := r.ovr } := rfl

@[simp] theorem complete_results (s : State) (r : CmdResult) :
    (complete s r).results = r.regs := rfl

@[simp] theorem complete_phase (s : State) (r : CmdResult) :
    (complete s r).phase = .idle := rfl

@[simp] theorem complete_lat (s : State) (r : CmdResult) :
    (complete s r).lat = s.lat := rfl

@[simp] theorem complete_footprint (s : State) (r : CmdResult) :
    (complete s r).footprint = {} := rfl

@[simp] theorem complete_mem (s : State) (r : CmdResult) :
    (complete s r).mem = r.mem := rfl

@[simp] theorem complete_memSize (s : State) (r : CmdResult) :
    (complete s r).memSize = s.memSize := rfl

@[simp] theorem complete_hazardFault (s : State) (r : CmdResult) :
    (complete s r).hazardFault = s.hazardFault := rfl

@[simp] theorem complete_resetLine (s : State) (r : CmdResult) :
    (complete s r).resetLine = s.resetLine := rfl

@[simp] theorem complete_host (s : State) (r : CmdResult) :
    (complete s r).host = s.host := rfl

@[simp] theorem complete_turns (s : State) (r : CmdResult) :
    (complete s r).turns = s.turns := rfl

@[simp] theorem complete_received (s : State) (r : CmdResult) :
    (complete s r).received = s.received := rfl

@[simp] theorem complete_draws (s : State) (r : CmdResult) :
    (complete s r).draws = s.draws := rfl

@[simp] theorem complete_size (s : State) (r : CmdResult) : (complete s r).size = s.size := rfl

/-! ### `accept` -/

@[simp] theorem accept_cmd (s : State) (v : Word) :
    (accept s v).cmd = v := rfl

@[simp] theorem accept_operands (s : State) (v : Word) :
    (accept s v).operands = s.operands := rfl

@[simp] theorem accept_status (s : State) (v : Word) :
    (accept s v).status = {} := rfl

@[simp] theorem accept_results (s : State) (v : Word) :
    (accept s v).results = {} := rfl

@[simp] theorem accept_phase (s : State) (v : Word) :
    (accept s v).phase = .busy := rfl

@[simp] theorem accept_lat (s : State) (v : Word) :
    (accept s v).lat = { cmd := v, operands := s.operands } := rfl

@[simp] theorem accept_footprint (s : State) (v : Word) :
    (accept s v).footprint = footprintOf s.size { cmd := v, operands := s.operands } := rfl

@[simp] theorem accept_mem (s : State) (v : Word) :
    (accept s v).mem = s.mem := rfl

@[simp] theorem accept_memSize (s : State) (v : Word) :
    (accept s v).memSize = s.memSize := rfl

@[simp] theorem accept_hazardFault (s : State) (v : Word) :
    (accept s v).hazardFault = s.hazardFault := rfl

@[simp] theorem accept_resetLine (s : State) (v : Word) :
    (accept s v).resetLine = s.resetLine := rfl

@[simp] theorem accept_host (s : State) (v : Word) :
    (accept s v).host = s.host := rfl

@[simp] theorem accept_turns (s : State) (v : Word) :
    (accept s v).turns = s.turns := rfl

@[simp] theorem accept_received (s : State) (v : Word) :
    (accept s v).received = s.received := rfl

@[simp] theorem accept_draws (s : State) (v : Word) :
    (accept s v).draws = s.draws := rfl

@[simp] theorem accept_size (s : State) (v : Word) : (accept s v).size = s.size := rfl

/-! ### `reject` -/

@[simp] theorem reject_cmd (s : State) :
    (reject s).cmd = s.cmd := rfl

@[simp] theorem reject_operands (s : State) :
    (reject s).operands = s.operands := rfl

@[simp] theorem reject_status (s : State) :
    (reject s).status = { s.status with rej := true } := rfl

@[simp] theorem reject_results (s : State) :
    (reject s).results = s.results := rfl

@[simp] theorem reject_phase (s : State) :
    (reject s).phase = s.phase := rfl

@[simp] theorem reject_lat (s : State) :
    (reject s).lat = s.lat := rfl

@[simp] theorem reject_footprint (s : State) :
    (reject s).footprint = s.footprint := rfl

@[simp] theorem reject_mem (s : State) :
    (reject s).mem = s.mem := rfl

@[simp] theorem reject_memSize (s : State) :
    (reject s).memSize = s.memSize := rfl

@[simp] theorem reject_hazardFault (s : State) :
    (reject s).hazardFault = s.hazardFault := rfl

@[simp] theorem reject_resetLine (s : State) :
    (reject s).resetLine = s.resetLine := rfl

@[simp] theorem reject_host (s : State) :
    (reject s).host = s.host := rfl

@[simp] theorem reject_turns (s : State) :
    (reject s).turns = s.turns := rfl

@[simp] theorem reject_received (s : State) :
    (reject s).received = s.received := rfl

@[simp] theorem reject_draws (s : State) :
    (reject s).draws = s.draws := rfl

@[simp] theorem reject_size (s : State) : (reject s).size = s.size := rfl

/-! ### `assertReset` -/

@[simp] theorem assertReset_cmd (s : State) :
    (assertReset s).cmd = 0#64 := rfl

@[simp] theorem assertReset_operands (s : State) :
    (assertReset s).operands = {} := rfl

@[simp] theorem assertReset_status (s : State) :
    (assertReset s).status = {} := rfl

@[simp] theorem assertReset_results (s : State) :
    (assertReset s).results = {} := rfl

@[simp] theorem assertReset_phase (s : State) :
    (assertReset s).phase = .idle := rfl

@[simp] theorem assertReset_lat (s : State) :
    (assertReset s).lat = {} := rfl

@[simp] theorem assertReset_footprint (s : State) :
    (assertReset s).footprint = {} := rfl

@[simp] theorem assertReset_mem (s : State) :
    (assertReset s).mem = scramble s.draws s.mem s.footprint.writes := rfl

@[simp] theorem assertReset_memSize (s : State) :
    (assertReset s).memSize = s.memSize := rfl

@[simp] theorem assertReset_hazardFault (s : State) :
    (assertReset s).hazardFault = s.hazardFault := rfl

@[simp] theorem assertReset_resetLine (s : State) :
    (assertReset s).resetLine = true := rfl

@[simp] theorem assertReset_host (s : State) :
    (assertReset s).host = s.host := rfl

@[simp] theorem assertReset_turns (s : State) :
    (assertReset s).turns = s.turns := rfl

@[simp] theorem assertReset_received (s : State) :
    (assertReset s).received = s.received := rfl

@[simp] theorem assertReset_draws (s : State) :
    (assertReset s).draws = s.draws + 1 := rfl

@[simp] theorem assertReset_size (s : State) : (assertReset s).size = s.size := rfl

/-! ### `releaseReset` -/

@[simp] theorem releaseReset_cmd (s : State) :
    (releaseReset s).cmd = s.cmd := rfl

@[simp] theorem releaseReset_operands (s : State) :
    (releaseReset s).operands = s.operands := rfl

@[simp] theorem releaseReset_status (s : State) :
    (releaseReset s).status = s.status := rfl

@[simp] theorem releaseReset_results (s : State) :
    (releaseReset s).results = s.results := rfl

@[simp] theorem releaseReset_phase (s : State) :
    (releaseReset s).phase = s.phase := rfl

@[simp] theorem releaseReset_lat (s : State) :
    (releaseReset s).lat = s.lat := rfl

@[simp] theorem releaseReset_footprint (s : State) :
    (releaseReset s).footprint = s.footprint := rfl

@[simp] theorem releaseReset_mem (s : State) :
    (releaseReset s).mem = s.mem := rfl

@[simp] theorem releaseReset_memSize (s : State) :
    (releaseReset s).memSize = s.memSize := rfl

@[simp] theorem releaseReset_hazardFault (s : State) :
    (releaseReset s).hazardFault = s.hazardFault := rfl

@[simp] theorem releaseReset_resetLine (s : State) :
    (releaseReset s).resetLine = false := rfl

@[simp] theorem releaseReset_host (s : State) :
    (releaseReset s).host = s.host := rfl

@[simp] theorem releaseReset_turns (s : State) :
    (releaseReset s).turns = s.turns := rfl

@[simp] theorem releaseReset_received (s : State) :
    (releaseReset s).received = s.received := rfl

@[simp] theorem releaseReset_draws (s : State) :
    (releaseReset s).draws = s.draws := rfl

@[simp] theorem releaseReset_size (s : State) : (releaseReset s).size = s.size := rfl

/-! ### `receive` -/

@[simp] theorem receive_cmd (s : State) (r : HostRead) :
    (receive s r).cmd = s.cmd := rfl

@[simp] theorem receive_operands (s : State) (r : HostRead) :
    (receive s r).operands = s.operands := rfl

@[simp] theorem receive_status (s : State) (r : HostRead) :
    (receive s r).status = s.status := rfl

@[simp] theorem receive_results (s : State) (r : HostRead) :
    (receive s r).results = s.results := rfl

@[simp] theorem receive_phase (s : State) (r : HostRead) :
    (receive s r).phase = s.phase := rfl

@[simp] theorem receive_lat (s : State) (r : HostRead) :
    (receive s r).lat = s.lat := rfl

@[simp] theorem receive_footprint (s : State) (r : HostRead) :
    (receive s r).footprint = s.footprint := rfl

@[simp] theorem receive_mem (s : State) (r : HostRead) :
    (receive s r).mem = s.mem := rfl

@[simp] theorem receive_memSize (s : State) (r : HostRead) :
    (receive s r).memSize = s.memSize := rfl

@[simp] theorem receive_hazardFault (s : State) (r : HostRead) :
    (receive s r).hazardFault = s.hazardFault := rfl

@[simp] theorem receive_resetLine (s : State) (r : HostRead) :
    (receive s r).resetLine = s.resetLine := rfl

@[simp] theorem receive_host (s : State) (r : HostRead) :
    (receive s r).host = s.host := rfl

@[simp] theorem receive_turns (s : State) (r : HostRead) :
    (receive s r).turns = s.turns := rfl

@[simp] theorem receive_received (s : State) (r : HostRead) :
    (receive s r).received = r :: s.received := rfl

@[simp] theorem receive_draws (s : State) (r : HostRead) :
    (receive s r).draws = s.draws := rfl

@[simp] theorem receive_size (s : State) (r : HostRead) : (receive s r).size = s.size := rfl

/-! ### Reset -/

@[simp] theorem resetWith_size (n : Fin (2 ^ 64 + 1)) : (State.resetWith n).size = n.val := rfl

@[simp] theorem reset_mem : State.reset.mem = [] := rfl

@[simp] theorem reset_phase : State.reset.phase = .idle := rfl

end Sys2Proof.Machine
end

