-- ==== Sys2Proof/Laws/Commands.lean ====
section
/-! SUPPORT. Everything a command can do, said once per shared operation: a command ends in a `raise` before any
write, or in a `finish` after writing one range at DST_ADDR. -/

namespace Sys2Proof.Machine

/-! ### Lengths of what is stored -/

theorem length_storeStream (p : Bool) (m : Bytes) :
    (storeStream p (expand (frame m))).length = streamLength p m.length := by
  cases p <;> simp only [storeStream, streamLength, Bool.false_eq_true, if_true, if_false, List.length_map,
    length_regroup, length_expand, frame, List.length_append, length_be32]
  omega

/-- Packed, a stored frame is the frame itself (R124). -/
theorem storeStream_packed (m : Bytes) : storeStream false (expand (frame m)) = be32 m.length ++ m := by
  have h := regroup_expand_append (frame m) []
  rw [List.append_nil, regroup_of_short (t := []) (by simp), List.append_nil] at h
  exact h.trans rfl

theorem toNat_ofNat_of_lt {n : Nat} (h : n < 2 ^ 64) : (BitVec.ofNat 64 n).toNat = n := by
  rw [BitVec.toNat_ofNat, Nat.mod_eq_of_lt h]

theorem streamLength_lt {p : Bool} {len : Nat} (h : len < 2 ^ 32) : streamLength p len < 2 ^ 64 := by
  unfold streamLength
  split <;> omega

/-! ### The common end of DECODE_FRAME and EXTRACT -/

/-- What `deliverPayload` can answer: an error of the decoder, a payload range outside memory, an overlap, or the
payload written. -/
theorem deliverPayload_cases (u : Bool) (size s n d : Nat) (t : Bits) (cap : Nat) (mem : Memory) :
    (∃ ovr len, deliverPayload u size s n d t cap mem = raise mem (unencoded ovr len)) ∨
    (∃ e len, (e = .range ∨ e = .overlap) ∧
      deliverPayload u size s n d t cap mem = raise mem { err := e, regs := { declLen := BitVec.ofNat 64 len } }) ∨
    (∃ m, m.length = headerValue (t.take 32) ∧ m.length ≤ cap ∧ 32 + 8 * m.length ≤ t.length ∧
      InMem size d m.length ∧ ¬ Overlaps d m.length s n ∧
      m = regroup ((t.drop 32).take (8 * m.length)) ∧
      deliverPayload u size s n d t cap mem = finish (mem.writeBytes d m) (utf8Warning u m)
        { result := BitVec.ofNat 64 m.length, declLen := BitVec.ofNat 64 m.length }) := by
  unfold deliverPayload
  rcases decodeFrame_spec t cap with h | h | h | h
  · exact Or.inl ⟨_, _, by rw [h.2]⟩
  · exact Or.inl ⟨_, _, by rw [h.2.2]⟩
  · exact Or.inl ⟨_, _, by rw [h.2.2.2]⟩
  · rw [h.2.2]
    dsimp only
    have hlen : (regroup ((t.drop 32).take (8 * headerValue (t.take 32)))).length = headerValue (t.take 32) := by
      rw [length_regroup, List.length_take, List.length_drop]
      omega
    by_cases h1 : InMem size d (headerValue (t.take 32))
    · by_cases h2 : Overlaps d (headerValue (t.take 32)) s n
      · exact Or.inr (Or.inl ⟨.overlap, _, Or.inr rfl, by rw [if_neg (not_not.2 h1), if_pos h2]⟩)
      · refine Or.inr (Or.inr ⟨_, hlen, ?_⟩)
        rw [hlen, if_neg (not_not.2 h1), if_neg h2]
        exact ⟨h.2.1, h.1, h1, h2, rfl, rfl⟩
    · exact Or.inr (Or.inl ⟨.range, _, Or.inl rfl, by rw [if_pos h1]⟩)

/-! ### Every command -/

/-- How the command `i`, run in `s`, can end. -/
inductive Effect (i : Instr) (s : State) : CmdResult → Prop
  /-- R193: an error, before any write. -/
  | error (r : Raise) (err : r.err ≠ .ok) (ovr : r.ovr = true → r.err = .invalidOrUnencoded)
      (result : r.regs.result = 0#64) (utilNum : r.regs.utilNum = 0#64) (utilDen : r.regs.utilDen = 0#64) :
      Effect i s (raise s.mem r)
  /-- Success: `bytes` written at DST_ADDR, inside data memory and inside the potential write set. -/
  | success (bytes : Bytes) (warn : Bool) (regs : Results)
      (inside : InMem s.size s.lat.operands.dstAddr.toNat bytes.length)
      (result : i ≠ .capacity → regs.result.toNat = bytes.length)
      (nothing : i = .capacity → bytes = [])
      (footprint : decode s.lat.cmd = .legal i → ∀ a, s.lat.operands.dstAddr.toNat ≤ a →
        a < s.lat.operands.dstAddr.toNat + bytes.length → InRanges (footprintOf s.size s.lat).writes a)
      (util : (regs.utilNum = 0#64 ∧ regs.utilDen = 0#64) ∨
        (0 < regs.utilNum.toNat ∧ regs.utilNum.toNat ≤ regs.utilDen.toNat)) :
      Effect i s (finish (s.mem.writeBytes s.lat.operands.dstAddr.toNat bytes) warn regs)

/-- R75: the addresses of a range cut at MEM_SIZE. -/
theorem inRanges_clipRange {size a n b : Nat} :
    InRanges [clipRange size a n] b ↔ a ≤ b ∧ b < a + n ∧ b < size := by
  simp only [InRanges, clipRange, List.mem_singleton, exists_eq_left]
  omega

/-- The address lies in the range cut at MEM_SIZE. -/
theorem mem_clipRange {size a n b : Nat} (hb : b < size) (h1 : a ≤ b) (h2 : b < a + n) :
    InRanges [clipRange size a n] b := inRanges_clipRange.2 ⟨h1, h2, hb⟩

theorem capacityCmd_effect (s : State) : Effect .capacity s (capacityCmd s.lat.operands s.mem) := by
  refine Effect.success [] false { result := _ } (Or.inl rfl) (fun h => (h rfl).elim) (fun _ => rfl) ?_
    (Or.inl ⟨rfl, rfl⟩)
  intro _ a h1 h2
  simp only [List.length_nil] at h2
  omega

theorem encodeFrameCmd_effect (p : Bool) (s : State) :
    Effect (.encodeFrame p) s (encodeFrameCmd p s.size s.lat.operands s.mem) := by
  unfold encodeFrameCmd
  dsimp only
  by_cases h1 : 2 ^ 32 ≤ s.lat.operands.msgLen.toNat
  · rw [if_pos h1]; exact Effect.error _ (by simp) (by simp) rfl rfl rfl
  rw [if_neg h1]
  by_cases h2 : InMem s.size s.lat.operands.msgAddr.toNat s.lat.operands.msgLen.toNat
  swap
  · rw [if_pos h2]; exact Effect.error _ (by simp) (by simp) rfl rfl rfl
  rw [if_neg (not_not.2 h2)]
  by_cases h3 : InMem s.size s.lat.operands.dstAddr.toNat (streamLength p s.lat.operands.msgLen.toNat)
  swap
  · rw [if_pos h3]; exact Effect.error _ (by simp) (by simp) rfl rfl rfl
  rw [if_neg (not_not.2 h3)]
  split
  · exact Effect.error _ (by simp) (by simp) rfl rfl rfl
  have hm := Memory.length_readBytes s.mem s.lat.operands.msgAddr.toNat s.lat.operands.msgLen.toNat
  rw [encodeFrame_of_fits (by omega)]
  have hl := length_storeStream p (s.mem.readBytes s.lat.operands.msgAddr.toNat s.lat.operands.msgLen.toNat)
  rw [hm] at hl
  refine Effect.success _ false { result := _ } (by rwa [hl]) (fun _ => ?_) (by simp) ?_ (Or.inl ⟨rfl, rfl⟩)
  · rw [hl]
    exact toNat_ofNat_of_lt (streamLength_lt (by omega))
  · intro hd a ha1 ha2
    rw [hl] at ha2
    unfold footprintOf
    simp only [hd, if_neg h1]
    refine mem_clipRange ?_ ha1 ha2
    rcases h3 with h3 | h3 <;> omega

/-- The effect of DECODE_FRAME and EXTRACT, from `deliverPayload_cases`. -/
theorem deliverPayload_effect (i : Instr) (s : State) (u : Bool) (a n : Nat) (t : Bits) (cap : Nat)
    (hi : i ≠ .capacity) (hcap : decode s.lat.cmd = .legal i →
      ∀ len b, len ≤ cap → len < 2 ^ 32 → b < s.size → s.lat.operands.dstAddr.toNat ≤ b →
        b < s.lat.operands.dstAddr.toNat + len → InRanges (footprintOf s.size s.lat).writes b) :
    Effect i s (deliverPayload u s.size a n s.lat.operands.dstAddr.toNat t cap s.mem) := by
  rcases deliverPayload_cases u s.size a n s.lat.operands.dstAddr.toNat t cap s.mem with
    ⟨ovr, len, h⟩ | ⟨e, len, he, h⟩ | ⟨m, hm, hc, ht, hin, hov, hmm, h⟩
  · rw [h]; exact Effect.error _ (by simp [unencoded]) (fun _ => rfl) rfl rfl rfl
  · rw [h]
    refine Effect.error _ ?_ (by simp) rfl rfl rfl
    rcases he with rfl | rfl <;> simp
  · rw [h]
    have hlt : m.length < 2 ^ 32 := by rw [hm]; exact headerValue_take_lt t
    refine Effect.success m _ _ hin (fun _ => toNat_ofNat_of_lt (by omega)) (fun h => (hi h).elim) ?_
      (Or.inl ⟨rfl, rfl⟩)
    intro hd b h1 h2
    refine hcap hd m.length b hc hlt ?_ h1 h2
    rcases hin with hin | hin <;> omega

theorem decodeFrameCmd_effect (p u : Bool) (s : State) :
    Effect (.decodeFrame p u) s (decodeFrameCmd p u s.size s.lat.operands s.mem) := by
  unfold decodeFrameCmd
  dsimp only
  split
  · exact Effect.error _ (by simp) (by simp) rfl rfl rfl
  · refine deliverPayload_effect _ s u _ _ _ _ (by simp) ?_
    intro hd len b h1 h2 h3 h4 h5
    unfold footprintOf
    simp only [hd]
    exact mem_clipRange h3 h4 (by omega)

theorem extractCmd_effect (u : Bool) (s : State) :
    Effect (.extract u) s (extractCmd u s.size s.lat.operands s.mem) := by
  unfold extractCmd
  dsimp only
  split
  · exact Effect.error _ (by simp) (by simp) rfl rfl rfl
  · refine deliverPayload_effect _ s u _ _ _ _ (by simp) ?_
    intro hd len b h1 h2 h3 h4 h5
    unfold footprintOf
    simp only [hd]
    simp only [capacity] at h1
    exact mem_clipRange h3 h4 (by omega)

/-- An embed that fits answers the buffer with its plane written (R152). -/
theorem embedPixels_of_fits {buf m : Bytes} (h1 : m.length < 2 ^ 32) (h2 : 4 + m.length ≤ capacity buf.length) :
    embedPixels buf m = .ok (writePlane buf (expand (frame m))) := by
  rw [embedPixels, encodeFrame_of_fits h1]
  dsimp only
  rw [if_neg (by omega)]

theorem embedCmd_effect (s : State) : Effect .embed s (embedCmd s.size s.lat.operands s.mem) := by
  unfold embedCmd
  dsimp only
  by_cases h1 : 2 ^ 32 ≤ s.lat.operands.msgLen.toNat
  · rw [if_pos h1]; exact Effect.error _ (by simp) (by simp) rfl rfl rfl
  rw [if_neg h1]
  by_cases h2 : capacity s.lat.operands.srcLen.toNat < 4 + s.lat.operands.msgLen.toNat
  · rw [if_pos h2]; exact Effect.error _ (by simp) (by simp) rfl rfl rfl
  rw [if_neg h2]
  split
  · exact Effect.error _ (by simp) (by simp) rfl rfl rfl
  split
  · exact Effect.error _ (by simp) (by simp) rfl rfl rfl
  by_cases h3 : InMem s.size s.lat.operands.dstAddr.toNat (embedLength s.lat.operands.dstAddr.toNat
    s.lat.operands.srcAddr.toNat s.lat.operands.srcLen.toNat s.lat.operands.msgLen.toNat)
  swap
  · rw [if_pos h3]; exact Effect.error _ (by simp) (by simp) rfl rfl rfl
  rw [if_neg (not_not.2 h3)]
  split
  · exact Effect.error _ (by simp) (by simp) rfl rfl rfl
  split
  · exact Effect.error _ (by simp) (by simp) rfl rfl rfl
  have hn := s.lat.operands.srcLen.isLt
  have hm := Memory.length_readBytes s.mem s.lat.operands.msgAddr.toNat s.lat.operands.msgLen.toNat
  have hb := Memory.length_readBytes s.mem s.lat.operands.srcAddr.toNat s.lat.operands.srcLen.toNat
  rw [embedPixels_of_fits (by omega) (by rw [hb]; omega)]
  unfold capacity at h2
  have hw : embedLength s.lat.operands.dstAddr.toNat s.lat.operands.srcAddr.toNat s.lat.operands.srcLen.toNat
      s.lat.operands.msgLen.toNat ≤ s.lat.operands.srcLen.toNat := by
    unfold embedLength
    split <;> omega
  have hl : ((writePlane (s.mem.readBytes s.lat.operands.srcAddr.toNat s.lat.operands.srcLen.toNat)
      (expand (frame (s.mem.readBytes s.lat.operands.msgAddr.toNat s.lat.operands.msgLen.toNat)))).take
        (embedLength s.lat.operands.dstAddr.toNat s.lat.operands.srcAddr.toNat s.lat.operands.srcLen.toNat
          s.lat.operands.msgLen.toNat)).length
      = embedLength s.lat.operands.dstAddr.toNat s.lat.operands.srcAddr.toNat s.lat.operands.srcLen.toNat
          s.lat.operands.msgLen.toNat := by
    rw [List.length_take, length_writePlane, hb]
    omega
  refine Effect.success _ false _ (by rwa [hl]) (fun _ => ?_) (by simp) ?_ ?_
  · rw [hl]
    exact toNat_ofNat_of_lt (by omega)
  · intro hd a ha1 ha2
    rw [hl] at ha2
    unfold footprintOf
    simp only [hd]
    rw [if_neg (by omega)]
    refine mem_clipRange ?_ ha1 ha2
    rcases h3 with h3 | h3 <;> omega
  · right
    dsimp only
    unfold capacity
    rw [toNat_ofNat_of_lt (by omega), toNat_ofNat_of_lt (by omega)]
    omega

/-- Every command completes, and one of the two ends of `Effect` is how. -/
theorem exec_effect (i : Instr) (s : State) : ∃ r, exec i s = .next (complete s r) ∧ Effect i s r := by
  cases i with
  | capacity => exact ⟨_, rfl, capacityCmd_effect s⟩
  | encodeFrame p => exact ⟨_, rfl, encodeFrameCmd_effect p s⟩
  | decodeFrame p u => exact ⟨_, rfl, decodeFrameCmd_effect p u s⟩
  | embed => exact ⟨_, rfl, embedCmd_effect s⟩
  | extract u => exact ⟨_, rfl, extractCmd_effect u s⟩

end Sys2Proof.Machine
end

