-- ==== Sys2Proof/Laws/PerInstr.lean ====
section
/-! SUPPORT. What holds of every instruction as syntax, one lemma per constructor: it is well-formed, its word has
the fields of its row of R92, and its word matches the row of the opcode table that bears its name and no other
(spec/30_encoding.md R91, R92, R95). -/

namespace Sys2Proof.Laws.Encoding

/-- The mnemonic of the instruction's row in spec/opcode_table.json. -/
def rowName : Instr → String
  | .capacity => "capacity"
  | .encodeFrame _ => "encode_frame"
  | .decodeFrame _ _ => "decode_frame"
  | .embed => "embed"
  | .extract _ => "extract"

/-- Well-formed, with the fields of R92, on exactly its own row of R95. -/
def Statement (i : Instr) : Prop :=
  i.wellFormed = true ∧ CmdFields.ofWord (encode i) = i.fields ∧
    (opcodeTable.filter (fun r => rowMatches r (encode i))).map (fun r => r.mnemonic) = [rowName i]

theorem capacity : Statement .capacity := by unfold Statement; decide

theorem encodeFrame (p : Bool) : Statement (.encodeFrame p) := by
  cases p <;> (unfold Statement; decide)

theorem decodeFrame (p u : Bool) : Statement (.decodeFrame p u) := by
  cases p <;> cases u <;> (unfold Statement; decide)

theorem embed : Statement .embed := by unfold Statement; decide

theorem extract (u : Bool) : Statement (.extract u) := by
  cases u <;> (unfold Statement; decide)

end Sys2Proof.Laws.Encoding
end

