-- ==== Sys2Proof/Laws/Step.lean ====
section
/-! SUPPORT. Everything one step can do, said once: the inversion lemmas of the host's operations, of the two agents'
turns and of `step`, and the lemmas that run a given turn forwards. -/

namespace Sys2Proof.Machine

open Sys2Proof.Safety

/-! ### Registers -/

theorem regAt_regOffset (r : RegName) : regAt (regOffset r) = some r := by
  cases r <;> decide

theorem regOffset_legal (r : RegName) : LegalAccess (regOffset r) 64 := by
  cases r <;> decide

/-- R22: no register stands at a reserved offset. -/
theorem regAt_reserved {off : Nat} (h : 0x78 ≤ off) : regAt off = none := by
  unfold regAt
  rw [List.find?_eq_none]
  intro r _
  have : regOffset r ≤ 0x70 := by cases r <;> decide
  simp only [beq_iff_eq]
  omega

theorem readOffset_regOffset (s : State) (r : RegName) : readOffset s (regOffset r) = readReg s r := by
  rw [readOffset, regAt_regOffset]

theorem writeOffset_regOffset (s : State) (r : RegName) (v : Word) :
    writeOffset s (regOffset r) v = writeReg s v r := by
  rw [writeOffset, regAt_regOffset]

theorem readOffset_reserved (s : State) {off : Nat} (h : 0x78 ≤ off) : readOffset s off = 0#64 := by
  rw [readOffset, regAt_reserved h]

theorem writeOffset_reserved (s : State) {off : Nat} (v : Word) (h : 0x78 ≤ off) : writeOffset s off v = s := by
  rw [writeOffset, regAt_reserved h]

/-- What a register write can do: accept, reject, or change an operand register. -/
theorem writeOffset_cases (s : State) (off : Nat) (v : Word) :
    (s.phase = .idle ∧ writeOffset s off v = accept s v) ∨
    (s.phase = .busy ∧ writeOffset s off v = reject s) ∨
    (∃ o, writeOffset s off v = { s with operands := o }) := by
  unfold writeOffset
  cases regAt off with
  | none => exact Or.inr (Or.inr ⟨s.operands, rfl⟩)
  | some r =>
    cases r
    case cmd =>
      cases h : s.phase
      · exact Or.inl ⟨rfl, by simp [writeReg, writeCmd, h]⟩
      · exact Or.inr (Or.inl ⟨rfl, by simp [writeReg, writeCmd, h]⟩)
    all_goals exact Or.inr (Or.inr ⟨_, rfl⟩)

theorem regAccess_legal {s : State} {off width : Nat} (after : State) (hr : s.resetLine = false)
    (h : LegalAccess off width) : regAccess s off width after = .next after := by
  rw [regAccess, hr, if_neg Bool.false_ne_true, if_pos h]

theorem regAccess_next {s after t : State} {off width : Nat} (h : regAccess s off width after = .next t) :
    s.resetLine = false ∧ LegalAccess off width ∧ t = after := by
  unfold regAccess at h
  cases hr : s.resetLine
  · rw [hr, if_neg Bool.false_ne_true] at h
    split at h
    · next hl =>
      cases h
      exact ⟨rfl, hl, rfl⟩
    · cases h
  · rw [hr, if_pos rfl] at h
    cases h

/-! ### Host operations -/

/-- Everything a host operation can do when it answers a next state. -/
inductive HostDid (s : State) : HostOp → State → Prop
  | accepted (off width : Nat) (v : Word) : s.resetLine = false → s.phase = .idle →
      HostDid s (.regWrite off width v) (accept s v)
  | rejected (off width : Nat) (v : Word) : s.phase = .busy → HostDid s (.regWrite off width v) (reject s)
  | operand (off width : Nat) (v : Word) (o : Operands) : HostDid s (.regWrite off width v) { s with operands := o }
  | read (off width : Nat) : HostDid s (.regRead off width) (receive s (.reg off (readOffset s off)))
  | hazard (a : Word) (v : Byte) : s.phase = .busy →
      (InRanges s.footprint.reads a.toNat ∨ InRanges s.footprint.writes a.toNat) →
      HostDid s (.storeByte a v) { s with hazardFault := true }
  | store (a : Word) (v : Byte) : a.toNat < s.size →
      HostDid s (.storeByte a v) { s with mem := s.mem.write a.toNat v }
  | draw (a : Word) : HostDid s (.loadByte a)
      (receive { s with draws := s.draws + 1 } (.byte a (Config.freeByte s.draws a.toNat)))
  | load (a : Word) : HostDid s (.loadByte a) (receive s (.byte a (s.mem.read a.toNat)))
  | polled : s.phase = .idle → HostDid s .poll (receive s (.reg 0x10 (readOffset s 0x10)))
  | pollAgain : s.phase = .busy →
      HostDid s .poll { receive s (.reg 0x10 (readOffset s 0x10)) with host := .poll :: s.host }

theorem hostOperation_cases {s t : State} {op : HostOp} (h : hostOperation s op = .next t) : HostDid s op t := by
  cases op with
  | regWrite off width v =>
    obtain ⟨hr, -, rfl⟩ := regAccess_next h
    rcases writeOffset_cases s off v with ⟨hp, e⟩ | ⟨hp, e⟩ | ⟨o, e⟩ <;> rw [e]
    · exact .accepted off width v hr hp
    · exact .rejected off width v hp
    · exact .operand off width v o
  | regRead off width =>
    obtain ⟨-, -, rfl⟩ := regAccess_next h
    exact .read off width
  | storeByte a v =>
    simp only [hostOperation, hostStore] at h
    split at h
    · cases h
    · next ha =>
      split at h
      · next hb =>
        cases h
        exact .hazard a v hb.1 hb.2
      · cases h
        exact .store a v (by omega)
  | loadByte a =>
    simp only [hostOperation, hostLoad] at h
    split at h
    · cases h
    · split at h
      · cases h
        exact .draw a
      · cases h
        exact .load a
  | poll =>
    obtain ⟨-, -, rfl⟩ := regAccess_next h
    unfold hostPoll
    cases hp : s.phase
    · exact .polled hp
    · exact .pollAgain hp

/-! ### Turns -/

/-- Everything one step can do when it answers a next state. -/
inductive StepDid (s : State) : State → Prop
  | reset (rest : List Turn) : s.turns = .resetAssert :: rest → StepDid s (assertReset { s with turns := rest })
  | release (rest : List Turn) : s.turns = .resetRelease :: rest → StepDid s (releaseReset { s with turns := rest })
  | waited (rest : List Turn) : StepDid s { s with turns := rest }
  | host (op : HostOp) (t₀ t : State) : s.hazardFault = false → HostMoves s op t₀ → HostDid t₀ op t → StepDid s t
  | completed (i : Instr) (t₀ : State) (r : CmdResult) : s.hazardFault = false → s.phase = .busy →
      EngineMoves s t₀ → decode s.lat.cmd = .legal i → Effect i t₀ r → StepDid s (complete t₀ r)
  | illegal (t₀ : State) (why : IllegalWord) : s.hazardFault = false → s.phase = .busy → EngineMoves s t₀ →
      decode s.lat.cmd = .illegal why → StepDid s (completeIllegal t₀)

/-- The engine's turn, inverted; `hm` says how the turn came to it. -/
theorem engineTurn_cases {s t₀ t : State} (hp : t₀.phase = s.phase) (hl : t₀.lat = s.lat)
    (hh : t₀.hazardFault = s.hazardFault) (hw : t₀ = { s with turns := t₀.turns })
    (hm : s.phase = .busy → EngineMoves s t₀) (h : engineTurn t₀ = .next t) : StepDid s t := by
  unfold engineTurn at h
  split at h
  · cases h
  next hz =>
  rw [hh] at hz
  have hz' : s.hazardFault = false := by simpa using hz
  split at h
  · next hi =>
    cases h
    rw [hw]
    exact .waited _
  · next hb =>
    rw [hp] at hb
    split at h
    · next i hd =>
      rw [hl] at hd
      obtain ⟨r, he, hr⟩ := exec_effect i t₀
      rw [he] at h
      cases h
      exact .completed i t₀ r hz' hb (hm hb) hd hr
    · next why hd =>
      rw [hl] at hd
      cases h
      exact .illegal t₀ why hz' hb (hm hb) hd

/-- The host's turn, inverted. -/
theorem hostTurn_cases {s t₀ t : State} (hh : t₀.hazardFault = s.hazardFault) (hw : t₀ = { s with turns := t₀.turns })
    (hm : (s.turns = [] ∧ s.phase = .idle ∧ t₀ = s) ∨ s.turns = .host :: t₀.turns)
    (h : hostTurn t₀ = .next t) : StepDid s t := by
  unfold hostTurn at h
  split at h
  · cases h
  next hz =>
  rw [hh] at hz
  have hz' : s.hazardFault = false := by simpa using hz
  have hhost : t₀.host = s.host := by rw [hw]
  split at h
  · cases h
    rw [hw]
    exact .waited _
  · next op rest ho =>
    refine .host op { t₀ with host := rest } t hz' ⟨by rw [← hhost, ho], ?_⟩ (hostOperation_cases h)
    rcases hm with ⟨h1, h2, h3⟩ | h1
    · exact Or.inl ⟨h1, h2, by rw [h3]⟩
    · refine Or.inr ⟨h1, ?_⟩
      conv_lhs => rw [hw]

/-- R236: one of these happened. -/
theorem step_cases {s t : State} (h : step s = .next t) : StepDid s t := by
  unfold step takeTurn at h
  split at h
  · next rest ht =>
    cases h
    exact .reset rest ht
  · next rest ht =>
    cases h
    exact .release rest ht
  · next rest ht => exact hostTurn_cases (t₀ := { s with turns := rest }) rfl rfl (Or.inr ht) h
  · next rest ht => exact engineTurn_cases (t₀ := { s with turns := rest }) rfl rfl rfl rfl (fun _ => Or.inr ⟨ht, rfl⟩) h
  · next ht =>
    split at h
    · next hb => exact engineTurn_cases rfl rfl rfl rfl (fun _ => Or.inl ⟨ht, hb, rfl⟩) h
    · next hi => exact hostTurn_cases rfl rfl (Or.inl ⟨ht, hi, rfl⟩) h

/-! ### Turns, forwards -/

/-- Taking a host operation off changes nothing but the schedule and the program. -/
theorem hostMoves_eq {s t : State} {op : HostOp} (h : HostMoves s op t) :
    t = { s with turns := t.turns, host := t.host } := by
  obtain ⟨-, ⟨-, -, e⟩ | ⟨-, e⟩⟩ := h
  · rw [e]
  · exact e

/-- Taking the engine's turn off changes nothing but the schedule. -/
theorem engineMoves_eq {s t : State} (h : EngineMoves s t) : t = { s with turns := t.turns } := by
  obtain ⟨-, -, e⟩ | ⟨-, e⟩ := h
  · rw [e]
  · exact e

/-- The host runs the first operation of its program. -/
theorem hostTurn_eq {s : State} {op : HostOp} {rest : List HostOp} (hz : s.hazardFault = false)
    (ho : s.host = op :: rest) : hostTurn s = hostOperation { s with host := rest } op := by
  rw [hostTurn, hz, if_neg Bool.false_ne_true, ho]

/-- The engine runs the latched command. -/
theorem engineTurn_eq {s : State} {i : Instr} (hz : s.hazardFault = false) (hb : s.phase = .busy)
    (hd : decode s.lat.cmd = .legal i) : engineTurn s = exec i s := by
  rw [engineTurn, hz, if_neg Bool.false_ne_true, hb, hd]

/-- A host operation whose turn it is runs. -/
theorem step_hostMoves {s t : State} {op : HostOp} (hm : HostMoves s op t) (hz : s.hazardFault = false) :
    step s = hostOperation t op := by
  obtain ⟨ho, ⟨ht, hp, e⟩ | ⟨ht, e⟩⟩ := hm
  · rw [step, takeTurn, ht]
    dsimp only
    rw [hp]
    dsimp only
    rw [hostTurn_eq hz ho, ← e]
  · rw [step, takeTurn, ht]
    dsimp only
    rw [hostTurn_eq (s := { s with turns := t.turns }) hz ho]
    dsimp only
    rw [← e]

/-- The engine moves when it is its turn. -/
theorem step_engineMoves {s t : State} (hm : EngineMoves s t) : step s = engineTurn t := by
  obtain ⟨ht, hp, e⟩ | ⟨ht, e⟩ := hm
  · rw [step, takeTurn, ht]
    dsimp only
    rw [hp]
    dsimp only
    rw [e]
  · rw [step, takeTurn, ht]
    dsimp only
    rw [← e]

/-- A run goes on from where its first step leads. -/
theorem run_of_step {s t : State} (k : Nat) (h : step s = .next t) :
    Host.Core.run Sys2Proof.core (k + 1) s = Host.Core.run Sys2Proof.core k t := by
  have general : ∀ (M : Host.Core) (k : Nat) (s t : M.State), M.step s = .next t → M.run (k + 1) s = M.run k t := by
    intro M k s t h
    simp only [Host.Core.run, h]
  exact general Sys2Proof.core k s t h

end Sys2Proof.Machine
end

