-- ==== Sys2Proof/Tests/Slice0.lean ====
section
/-! SUPPORT. Tests whose expected results come from spec/95_test_vectors.md (the vector is named at each), the
well-formedness smoke test, and for every statement with hypotheses a concrete state that meets them. -/

open Sys2Proof Sys2Proof.Machine Sys2Proof.Safety

namespace Sys2Proof.Tests

/-! ### Small states -/

/-- The bytes of the message "HI". -/
def hi : Bytes := [0x48#8, 0x49#8]

/-- Memory with some bytes at an address, all else as after reset. -/
def memAt (a : Nat) (v : Bytes) : Memory := Memory.writeBytes [] a v

/-- The state in which command `i` has been accepted with these operands over this memory. -/
def accepted (i : Instr) (o : Operands) (m : Memory) : State :=
  accept { State.reset with operands := o, mem := m } (encode i)

/-- The state after one step; the state itself if the machine stops. -/
def after (s : State) : State :=
  match step s with
  | .next t => t
  | _ => s

/-- Reset with a host program. -/
def hosted (ops : List HostOp) : State := { State.reset with host := ops }

/-- "HI" at 0x000 and a buffer of 64 bytes of 0x10 at 0x100 (V25). -/
def pixels : Memory := (memAt 0 hi).writeBytes 0x100 (List.replicate 64 0x10#8)

/-- EMBED of V25 and V26, with the destination left open. -/
def embedTo (d : Word) : State :=
  accepted .embed { msgLen := 2#64, srcAddr := 0x100#64, srcLen := 64#64, dstAddr := d } pixels

/-- A BUSY EMBED as in V25, over memory as after reset, with the host to move and this program. -/
def busyHosted (ops : List HostOp) : State :=
  { accepted .embed { msgLen := 2#64, srcAddr := 0x100#64, srcLen := 64#64, dstAddr := 0x300#64 } [] with
    host := ops, turns := [.host] }

/-- The same with nothing scheduled: the engine is to move. -/
def busyFree : State := { busyHosted [] with turns := [] }

/-- `s` after the host's next operation has been taken off the program and its turn off the schedule. -/
def taken (s : State) : State := { s with host := s.host.tail, turns := s.turns.tail }

/-- DECODE_FRAME of a packed frame at 0x040 (V12 to V16). -/
def decodeAt (u : Bool) (n cap d : Word) (bytes : Bytes) : State :=
  accepted (.decodeFrame false u) { srcAddr := 0x40#64, srcLen := n, cap := cap, dstAddr := d } (memAt 0x40 bytes)

/-- The packed frame of "HI" (V1). -/
def hiFrame : Bytes := [0x00#8, 0x00#8, 0x00#8, 0x02#8, 0x48#8, 0x49#8]

/-- The 48 bits of the frame of "HI", one a byte (V9). -/
def hiPlane : Bytes :=
  (List.range 48).map (fun k => if k ∈ [30, 33, 36, 41, 44, 47] then 0x01#8 else 0x00#8)

/-- EXTRACT from a buffer at 0x100 (V27). -/
def extractAt (u : Bool) (n d : Word) (bytes : Bytes) : State :=
  accepted (.extract u) { srcAddr := 0x100#64, srcLen := n, dstAddr := d } (memAt 0x100 bytes)

/-- ENCODE_FRAME of "HI" at 0x000 (V1, V10). -/
def encodeTo (p : Bool) (ml d : Word) : State :=
  accepted (.encodeFrame p) { msgLen := ml, dstAddr := d } (memAt 0 hi)

/-- The hypotheses of the command statements, on the latched operands of a state. -/
abbrev srcIn (s : State) : Prop := InMem s.size s.lat.operands.srcAddr.toNat s.lat.operands.srcLen.toNat
abbrev msgIn (s : State) : Prop := InMem s.size s.lat.operands.msgAddr.toNat s.lat.operands.msgLen.toNat
abbrev outIn (s : State) (n : Nat) : Prop := InMem s.size s.lat.operands.dstAddr.toNat n
abbrev outOnMsg (s : State) (n : Nat) : Prop :=
  Overlaps s.lat.operands.dstAddr.toNat n s.lat.operands.msgAddr.toNat s.lat.operands.msgLen.toNat
abbrev outOnSrc (s : State) (n : Nat) : Prop :=
  Overlaps s.lat.operands.dstAddr.toNat n s.lat.operands.srcAddr.toNat s.lat.operands.srcLen.toNat
abbrev smallMsg (s : State) : Prop := s.lat.operands.msgLen.toNat < 2 ^ 32

/-- EMBED with every operand open (V26). -/
def embedOf (a ml src n d : Word) : State :=
  accepted .embed { msgAddr := a, msgLen := ml, srcAddr := src, srcLen := n, dstAddr := d } pixels

/-- The length a frame decoder reads from the source bytes of a state. -/
def declared (p : Bool) (s : State) : Nat :=
  headerValue ((loadStream p (s.mem.readBytes s.lat.operands.srcAddr.toNat s.lat.operands.srcLen.toNat)).take 32)

/-- How many bits it finds there. -/
def held (p : Bool) (s : State) : Nat :=
  (loadStream p (s.mem.readBytes s.lat.operands.srcAddr.toNat s.lat.operands.srcLen.toNat)).length

/-! ### Well-formedness: each check refuses an ill-formed term -/

theorem test_wf_reserved_bits :
    CmdFields.wellFormed { op := 1#4, p := false, u := false, rsvd := 1#58 } = false := by decide

theorem test_wf_op_zero : CmdFields.wellFormed { op := 0#4, p := false, u := false, rsvd := 0#58 } = false := by
  decide

theorem test_wf_op_six : CmdFields.wellFormed { op := 6#4, p := false, u := false, rsvd := 0#58 } = false := by
  decide

theorem test_wf_p_on_embed : CmdFields.wellFormed { op := 4#4, p := true, u := false, rsvd := 0#58 } = false := by
  decide

theorem test_wf_u_on_encode : CmdFields.wellFormed { op := 2#4, p := false, u := true, rsvd := 0#58 } = false := by
  decide

/-! ### Decoding: words written bit by bit from R91's fields (bits 3:0 OP, bit 4 P, bit 5 U) and R92's OP values -/

theorem test_decode_capacity : decode 0b0001#64 = .legal .capacity := by decide

theorem test_decode_encode_frame_b : decode 0b01_0010#64 = .legal (.encodeFrame true) := by decide

theorem test_decode_decode_frame_u : decode 0b10_0011#64 = .legal (.decodeFrame false true) := by decide

theorem test_decode_decode_frame_b : decode 0b01_0011#64 = .legal (.decodeFrame true false) := by decide

theorem test_decode_embed : decode 0b0100#64 = .legal .embed := by decide

theorem test_decode_extract_u : decode 0b10_0101#64 = .legal (.extract true) := by decide

/-- V30. -/
theorem test_decode_illegal : decode 0x21#64 = .illegal .uNotAllowed ∧ decode 0x14#64 = .illegal .pNotAllowed ∧
    decode 0x0F#64 = .illegal .reservedOp ∧ decode 0x8000000000000003#64 = .illegal .reservedBits := by decide

/-- R99. -/
theorem test_assemble : assemble "decode_frame.b.u" = some 0x33#64 ∧ assemble "decode_frame.u.b" = none := by decide

/-- The host's own way in: the table's row EXTRACT with U = 1. -/
theorem test_table_word : decodeTableWord 64 0x25 = some (.extract true) ∧
    (step (State.reset.withFetchWord 64 0x25)) = exec (.extract true) (State.reset.withFetchWord 64 0x25) := by
  constructor
  · decide
  · rfl

/-! ### One step of each command -/

/-- V20. -/
theorem test_capacity_1000 :
    readReg (after (accepted .capacity { srcLen := 1000#64 } [])) .result = 125#64 := by decide

/-- V21, last row. -/
theorem test_capacity_top :
    readReg (after (accepted .capacity { srcLen := 0xFFFFFFFFFFFFFFFF#64 } [])) .result
      = 0x1FFFFFFFFFFFFFFF#64 := by decide

/-- V1. -/
theorem test_encode_frame_hi :
    let t := after (encodeTo false 2#64 0x40#64)
    readReg t .status = 0x02#64 ∧ readReg t .result = 6#64 ∧
      t.mem.readBytes 0x40 6 = [0x00#8, 0x00#8, 0x00#8, 0x02#8, 0x48#8, 0x49#8] := by decide

/-- V8. -/
theorem test_encode_frame_b_x :
    let t := after (accepted (.encodeFrame true) { msgLen := 1#64, dstAddr := 0x40#64 } (memAt 0 [0x78#8]))
    readReg t .result = 40#64 ∧ t.mem.readBytes 0x5F 9
      = [0x01#8, 0x00#8, 0x01#8, 0x01#8, 0x01#8, 0x01#8, 0x00#8, 0x00#8, 0x00#8] := by decide

/-- V15, second row: the payload is not UTF-8, and is written in full. -/
theorem test_decode_frame_u_warns :
    let t := after (decodeAt true 6#64 125#64 0x80#64 [0x00#8, 0x00#8, 0x00#8, 0x02#8, 0xC3#8, 0x28#8])
    readReg t .status = 0x102#64 ∧ t.mem.readBytes 0x80 2 = [0xC3#8, 0x28#8] := by decide

/-- V13, SRC_LEN 5 and CAP 125: 40 bits where 48 are needed. -/
theorem test_decode_frame_overrun :
    let t := after (decodeAt false 5#64 125#64 0x80#64 hiFrame)
    readReg t .status = 0x232#64 ∧ readReg t .declLen = 2#64 ∧ t.mem.readBytes 0x80 2 = [0x00#8, 0x00#8] := by
  decide

/-- V25. -/
theorem test_embed_copy :
    let t := after (embedTo 0x300#64)
    [RegName.status, .result, .needed, .avail, .utilNum, .utilDen].map (readReg t)
        = [0x02#64, 64#64, 6#64, 8#64, 48#64, 64#64] ∧
      t.mem.readBytes 0x31E 4 = [0x11#8, 0x10#8, 0x10#8, 0x11#8] ∧
      t.mem.readBytes 0x32F 2 = [0x11#8, 0x10#8] := by decide +kernel

/-- V26, MSG_ADDR 0x130 in place: the message sits in elements 48 and 49, which are not written. -/
theorem test_embed_message_in_buffer :
    let m : Memory := (memAt 0x100 (List.replicate 64 0x10#8)).writeBytes 0x130 hi
    let t := after (accepted .embed
      { msgAddr := 0x130#64, msgLen := 2#64, srcAddr := 0x100#64, srcLen := 64#64, dstAddr := 0x100#64 } m)
    readReg t .status = 0x02#64 ∧ readReg t .result = 48#64 ∧ t.mem.readBytes 0x12F 3 = [0x11#8, 0x48#8, 0x49#8] := by
  decide +kernel

/-- V27: the output of V2, cut to the 48 elements of the frame. -/
theorem test_extract_hi :
    let t := after (extractAt false 48#64 0x800#64 hiPlane)
    readReg t .status = 0x02#64 ∧ readReg t .result = 2#64 ∧ readReg t .declLen = 2#64 ∧
      t.mem.readBytes 0x800 2 = [0x48#8, 0x49#8] := by decide +kernel

/-- V27, 47 elements: 47 bits where 48 are needed. -/
theorem test_extract_overrun :
    let t := after (extractAt false 47#64 0x800#64 hiPlane)
    readReg t .status = 0x232#64 ∧ readReg t .result = 0#64 ∧ readReg t .declLen = 2#64 := by decide +kernel

/-! ### The lifecycle -/

/-- V30: an illegal word completes, and CMD reads back as written. -/
theorem test_illegal_word :
    let t := after (accept State.reset 0x22#64)
    readReg t .status = 0x42#64 ∧ readReg t .cmd = 0x22#64 := by decide

/-- V32: rejection while BUSY. -/
theorem test_rejected :
    let t := after (busyHosted [wr .cmd 0x05#64])
    readReg t .status = 0x10001#64 ∧ readReg t .cmd = 0x04#64 := by decide

/-- V31: a write to STATUS is ignored. -/
theorem test_status_read_only :
    let t := after (after (hosted [wr .status 0xFFFFFFFFFFFFFFFF#64, rd .status]))
    t.received = [.reg 0x10 0#64] := by decide

/-- V32: `sb` into the message of a BUSY EMBED. -/
theorem test_hazard : (after (busyHosted [.storeByte 1#64 0#8])).hazardFault = true := by decide

/-- R191's codes, read in STATUS bits 7:4 with DONE (the conventions of 95_test_vectors.md). -/
theorem test_error_numbers :
    [ErrCode.ok, .messageTooLarge, .capacityExceeded, .invalidOrUnencoded, .illegalCmd, .range, .overlap].map
        (fun e => statusWord .idle { done := true, err := e })
      = [0x02#64, 0x12#64, 0x22#64, 0x32#64, 0x42#64, 0x52#64, 0x62#64] := by decide

/-! ### Witnesses: every statement with hypotheses has a state that meets them -/

/-- The first register while IDLE, the last while BUSY. -/
theorem witness_HostReadsRegister :
    HostMoves (hosted [rd .id]) (.regRead 0x00 64) (taken (hosted [rd .id])) ∧
    HostMoves (busyHosted [rd .utilDen]) (.regRead 0x70 64) (taken (busyHosted [rd .utilDen])) ∧
    (hosted [rd .id]).hazardFault = false ∧ (hosted [rd .id]).resetLine = false ∧
    (busyHosted [rd .utilDen]).hazardFault = false ∧ (busyHosted [rd .utilDen]).resetLine = false := by decide

theorem witness_ReservedOffsets_first :
    HostMoves (hosted [.regRead 0x78 64]) (.regRead 0x78 64) (taken (hosted [.regRead 0x78 64])) ∧
    HostMoves (hosted [.regWrite 0xF8 64 5#64]) (.regWrite 0xF8 64 5#64) (taken (hosted [.regWrite 0xF8 64 5#64])) ∧
    0x78 % 8 = 0 ∧ 0xF8 % 8 = 0 := by decide

theorem witness_ReservedOffsets_readOnly :
    HostMoves (busyHosted [wr .id 5#64]) (.regWrite 0x00 64 5#64) (taken (busyHosted [wr .id 5#64])) ∧
    HostMoves (hosted [wr .utilDen 5#64]) (.regWrite 0x70 64 5#64) (taken (hosted [wr .utilDen 5#64])) := by decide

/-- The first operand register while IDLE, the last while BUSY. -/
theorem witness_HostWritesOperand :
    HostMoves (hosted [wr .msgAddr 5#64]) (.regWrite 0x18 64 5#64) (taken (hosted [wr .msgAddr 5#64])) ∧
    HostMoves (busyHosted [wr .cap 5#64]) (.regWrite 0x40 64 5#64) (taken (busyHosted [wr .cap 5#64])) ∧
    (busyHosted [wr .cap 5#64]).phase = .busy := by decide

theorem witness_CmdWriteAccepted :
    HostMoves (hosted [wr .cmd 0x01#64]) (.regWrite 0x08 64 0x01#64) (taken (hosted [wr .cmd 0x01#64])) ∧
    (hosted [wr .cmd 0x01#64]).hazardFault = false ∧ (hosted [wr .cmd 0x01#64]).resetLine = false ∧
    (hosted [wr .cmd 0x01#64]).phase = .idle := by decide

/-- The same with an illegal word: after acceptance it is the engine's turn. -/
theorem witness_CmdWriteAccepted_illegal :
    HostMoves (hosted [wr .cmd 0x22#64]) (.regWrite 0x08 64 0x22#64) (taken (hosted [wr .cmd 0x22#64])) ∧
    decode 0x22#64 = .illegal .uNotAllowed ∧
    EngineMoves (after (hosted [wr .cmd 0x22#64])) (after (hosted [wr .cmd 0x22#64])) := by decide

theorem witness_CmdWriteRejected :
    HostMoves (busyHosted [wr .cmd 0x05#64]) (.regWrite 0x08 64 0x05#64) (taken (busyHosted [wr .cmd 0x05#64])) ∧
    (busyHosted [wr .cmd 0x05#64]).hazardFault = false ∧ (busyHosted [wr .cmd 0x05#64]).resetLine = false ∧
    (busyHosted [wr .cmd 0x05#64]).phase = .busy := by decide

/-- V31, last row, an offset past the block, and a read, a write and a poll during reset. -/
theorem witness_RegisterAccessRefused :
    HostMoves (hosted [.regRead 0x10 32]) (.regRead 0x10 32) (taken (hosted [.regRead 0x10 32])) ∧
    HostMoves (hosted [.regRead 0x14 64]) (.regRead 0x14 64) (taken (hosted [.regRead 0x14 64])) ∧
    HostMoves (hosted [.regWrite 0x100 64 5#64]) (.regWrite 0x100 64 5#64)
      (taken (hosted [.regWrite 0x100 64 5#64])) ∧
    (∀ op ∈ [rd .id, wr .cmd 0x01#64, .poll],
      HostMoves { hosted [op] with resetLine := true } op { taken (hosted [op]) with resetLine := true }) := by decide

theorem witness_HostMemoryOutsideFootprint_idle :
    HostMoves (hosted [.storeByte 0xFFFF#64 5#8]) (.storeByte 0xFFFF#64 5#8)
      (taken (hosted [.storeByte 0xFFFF#64 5#8])) ∧
    HostMoves (hosted [.loadByte 0#64]) (.loadByte 0#64) (taken (hosted [.loadByte 0#64])) ∧
    (0xFFFF#64).toNat < State.reset.size ∧ (hosted []).hazardFault = false ∧ (hosted []).resetLine = false := by decide

/-- 0x002 is just past the message, 0x340 just past the copy. -/
theorem witness_HostMemoryOutsideFootprint_busy :
    HostMoves (busyHosted [.storeByte 2#64 5#8]) (.storeByte 2#64 5#8) (taken (busyHosted [.storeByte 2#64 5#8])) ∧
    HostMoves (busyHosted [.loadByte 0x340#64]) (.loadByte 0x340#64) (taken (busyHosted [.loadByte 0x340#64])) ∧
    (∀ a ∈ [2, 0x340], ¬ InRanges (busyHosted []).footprint.reads a ∧
      ¬ InRanges (busyHosted []).footprint.writes a) ∧ (busyHosted []).resetLine = false := by decide

theorem witness_HostStoreInFootprintIsHazard :
    HostMoves (busyHosted [.storeByte 1#64 5#8]) (.storeByte 1#64 5#8) (taken (busyHosted [.storeByte 1#64 5#8])) ∧
    InRanges (busyHosted []).footprint.reads 1 ∧
    HostMoves (busyHosted [.storeByte 0x33F#64 5#8]) (.storeByte 0x33F#64 5#8)
      (taken (busyHosted [.storeByte 0x33F#64 5#8])) ∧
    InRanges (busyHosted []).footprint.writes 0x33F ∧
    (busyHosted []).hazardFault = false ∧ (busyHosted []).phase = .busy ∧ 0x33F < (busyHosted []).size := by decide

theorem witness_HostLoadDuringBusy :
    HostMoves (busyHosted [.loadByte 0x300#64]) (.loadByte 0x300#64) (taken (busyHosted [.loadByte 0x300#64])) ∧
    InRanges (busyHosted []).footprint.writes 0x300 ∧
    HostMoves (busyHosted [.loadByte 1#64]) (.loadByte 1#64) (taken (busyHosted [.loadByte 1#64])) ∧
    InRanges (busyHosted []).footprint.reads 1 ∧ ¬ InRanges (busyHosted []).footprint.writes 1 := by decide

theorem witness_HostAccessOutsideMemoryFaults :
    HostMoves (hosted [.storeByte 0x10000#64 5#8]) (.storeByte 0x10000#64 5#8)
      (taken (hosted [.storeByte 0x10000#64 5#8])) ∧
    HostMoves (busyHosted [.loadByte 0x10000#64]) (.loadByte 0x10000#64)
      (taken (busyHosted [.loadByte 0x10000#64])) ∧
    State.reset.size ≤ (0x10000#64).toNat := by decide

theorem witness_HazardFaultSticky :
    (∃ s t, step s = .next t ∧ s.hazardFault = true) ∧
    (∃ s t, step s = .next t ∧ s.hazardFault = false ∧ t.hazardFault = true) :=
  ⟨⟨{ State.reset with hazardFault := true, turns := [.resetAssert] }, _, rfl, rfl⟩,
    ⟨busyHosted [.storeByte 1#64 0#8], _, rfl, by decide, by decide⟩⟩

theorem witness_StepRunsDecoded :
    EngineMoves (busyFree) (busyFree) ∧
    EngineMoves { busyFree with turns := [.engine, .host] } { busyFree with turns := [.host] } ∧
    (busyFree).phase = .busy ∧ (busyFree).hazardFault = false ∧
    decode (busyFree).lat.cmd = .legal .embed := by decide

theorem witness_IllegalWordCompletes :
    EngineMoves (accept State.reset 0#64) (accept State.reset 0#64) ∧ (accept State.reset 0#64).phase = .busy ∧
    (accept State.reset 0#64).hazardFault = false ∧
    decode (accept State.reset 0#64).lat.cmd = .illegal .reservedOp := by decide

theorem witness_CompletionEnabledExactlyWhenBusy :
    (EngineMoves (busyFree) (busyFree) ∧ (busyFree).phase = .busy ∧
      (busyFree).hazardFault = false) ∧
    (EngineMoves { State.reset with turns := [.engine] } State.reset ∧ State.reset.phase = .idle ∧
      State.reset.hazardFault = false) := by decide

theorem witness_OperandWriteCommutesWithCompletion :
    RegName.cap ∈ [RegName.msgAddr, .msgLen, .srcAddr, .srcLen, .dstAddr, .cap] ∧
    ∃ t, exec .embed (embedTo 0x300#64) = .next t :=
  ⟨by decide, _, rfl⟩

/-- A completion with the warning (V15, a lone 80), and one with OVR. -/
theorem witness_ErrorAndWarningExclusive :
    let s := decodeAt true 5#64 1#64 0x80#64 [0x00#8, 0x00#8, 0x00#8, 0x01#8, 0x80#8]
    let s' := decodeAt true 5#64 125#64 0x80#64 hiFrame
    (EngineMoves s s ∧ s.phase = .busy ∧ s.hazardFault = false ∧ (after s).status.warnUtf8 = true) ∧
    (EngineMoves s' s' ∧ s'.phase = .busy ∧ s'.hazardFault = false ∧ (after s').status.ovr = true) := by
  decide

theorem witness_ErrorsWriteNothing : ∃ s t, exec .embed s = .next t ∧ t.status.err ≠ .ok :=
  ⟨embedTo 0x101#64, _, rfl, by decide⟩

theorem witness_CommandsStoreOnlyTheirOutput :
    (∃ t, exec .embed (embedTo 0x300#64) = .next t ∧
      ¬ ((embedTo 0x300#64).lat.operands.dstAddr.toNat ≤ 0x340 ∧
        0x340 < (embedTo 0x300#64).lat.operands.dstAddr.toNat + t.results.result.toNat)) ∧
    ∃ t, exec .capacity (accepted .capacity {} []) = .next t :=
  ⟨⟨_, rfl, by decide⟩, _, rfl⟩

/-- A word of each clause, with a footprint at a boundary: an EMBED at equality with the capacity (48 elements), an
EXTRACT whose buffer passes the end of memory, a DECODE_FRAME with the largest CAP, an ENCODE_FRAME that is too long. -/
theorem witness_WritesStayInFootprint_clauses :
    decode 0x22#64 = .illegal .uNotAllowed ∧ decode 0x01#64 = .legal .capacity ∧
    (let l : Latched := { cmd := 0x02#64, operands := { msgLen := 0x100000000#64 } };
      decode l.cmd = .legal (.encodeFrame false) ∧ ¬ InRanges (footprintOf 0x10000 l).reads 0) ∧
    (let l : Latched := { cmd := 0x03#64, operands := { cap := 0xFFFFFFFFFFFFFFFF#64 } };
      decode l.cmd = .legal (.decodeFrame false false) ∧ InRanges (footprintOf (2 ^ 64) l).writes (2 ^ 32 - 2) ∧
        ¬ InRanges (footprintOf (2 ^ 64) l).writes (2 ^ 32 - 1)) ∧
    (let l : Latched := { cmd := 0x04#64,
                          operands := { msgAddr := 0x100#64, msgLen := 2#64, srcLen := 48#64, dstAddr := 0x200#64 } };
      decode l.cmd = .legal .embed ∧ InRanges (footprintOf 0x10000 l).reads 0x101 ∧
        InRanges (footprintOf 0x10000 l).writes 0x22F ∧ ¬ InRanges (footprintOf 0x10000 l).writes 0x230) ∧
    (let l : Latched := { cmd := 0x05#64, operands := { srcAddr := 0xFFF0#64, srcLen := 64#64, dstAddr := 0xFFFC#64 } };
      decode l.cmd = .legal (.extract false) ∧ InRanges (footprintOf 0x10000 l).reads 0xFFFF ∧
        ¬ InRanges (footprintOf 0x10000 l).reads 0x10000 ∧ InRanges (footprintOf 0x10000 l).writes 0xFFFF ∧
        ¬ InRanges (footprintOf 0x10000 l).writes 0x10000) := by decide

theorem witness_WritesStayInFootprint :
    decode (embedTo 0x300#64).lat.cmd = .legal .embed ∧
    (∃ t, exec .embed (embedTo 0x300#64) = .next t) ∧
    ¬ InRanges (footprintOf (embedTo 0x300#64).size (embedTo 0x300#64).lat).writes 0x340 :=
  ⟨by decide, ⟨_, rfl⟩, by decide⟩

/-- The second state has an EXTRACT buffer with the same 48 bytes and another byte just past it. -/
theorem witness_ReadSetDeterminesOutcome :
    let s := extractAt false 48#64 0x800#64 hiPlane
    let s' := extractAt false 48#64 0x800#64 (hiPlane ++ [0x77#8])
    s.lat = s'.lat ∧ s.memSize = s'.memSize ∧ decode s.lat.cmd = .legal (.extract false) ∧
      (footprintOf s.size s.lat).reads = [{ base := 0x100, size := 48 }] ∧
      s.mem.readBytes 0x100 48 = s'.mem.readBytes 0x100 48 ∧ s.mem ≠ s'.mem := by decide

theorem witness_PollEnds :
    let s := { embedTo 0x300#64 with host := [.poll, rd .id] }
    let s' := { embedTo 0x300#64 with host := [.poll, rd .id], turns := [.host, .host] }
    s.phase = .busy ∧ s.hazardFault = false ∧ s.resetLine = false ∧ s.host = .poll :: [rd .id] ∧
      s.turns = List.replicate 0 .host ∧
    s'.phase = .busy ∧ s'.hazardFault = false ∧ s'.resetLine = false ∧ s'.host = .poll :: [rd .id] ∧
      s'.turns = List.replicate 2 .host := by decide

/-- A BUSY state that meets the invariant, and whose step completes the command. -/
theorem witness_EveryStepKeepsInvariant :
    Invariant (accepted .capacity { srcLen := 1000#64 } (memAt 0 hi)) ∧
    ∃ t, step (accepted .capacity { srcLen := 1000#64 } (memAt 0 hi)) = .next t :=
  ⟨⟨by decide, by decide, by decide, by decide, by decide, by decide, by decide, by decide, by decide, by decide,
    by decide, by decide, by decide⟩, _, rfl⟩

theorem witness_MemSizeFixed : ∃ t, step (embedTo 0x300#64) = .next t := ⟨_, rfl⟩

/-- Reset while an EMBED is BUSY. -/
theorem witness_ResetFromAnyState :
    let s := { embedTo 0x300#64 with turns := [.resetAssert, .resetRelease] }
    s.turns = .resetAssert :: [.resetRelease] ∧ InRanges s.footprint.writes 0x300 ∧
      ¬ InRanges s.footprint.writes 0x340 := by decide

theorem witness_FirstCommandAfterReset :
    let s := { embedTo 0x300#64 with turns := [.resetAssert, .resetRelease, .host], host := [wr .cmd 0x01#64] }
    s.hazardFault = false ∧ s.turns = [.resetAssert, .resetRelease, .host] ∧
      s.host = [.regWrite 0x08 64 0x01#64] := by decide

theorem witness_ExpandBits : hi[1]? = some 0x49#8 ∧ (0 ≤ 7 ∧ 7 ≤ 7) := by decide

theorem witness_RegroupExpand : (expand hi).length % 8 = 0 ∧ ([] : Bits).length % 8 = 0 := by decide

/-- V4: the largest header. -/
theorem witness_HeaderValue : (expand [0xFF#8, 0xFF#8, 0xFF#8, 0xFF#8]).length = 32 ∧ 2 ^ 32 - 1 < 2 ^ 32 := by
  decide

theorem witness_FrameLengths : ∃ t, encodeFrame hi = .ok t := ⟨_, rfl⟩

theorem witness_MessageTooLargeExactly :
    (∃ m : Bytes, 2 ^ 32 ≤ m.length) ∧ (∃ m : Bytes, m.length = 2 ^ 32 - 1 ∧ m.length < 2 ^ 32) :=
  ⟨⟨List.replicate (2 ^ 32) 0#8, by simp only [List.length_replicate]; omega⟩,
    ⟨List.replicate (2 ^ 32 - 1) 0#8, by simp only [List.length_replicate],
      by simp only [List.length_replicate]; omega⟩⟩

theorem witness_FrameRoundTrip : hi.length < 2 ^ 32 ∧ hi.length ≤ 2 := by decide

/-- V11: `00 00 00 01 78 AA BB`, with cap = 1 (a message) and cap = 0 (L > cap). -/
theorem witness_TrailingBitsIgnored :
    let t := expand [0x00#8, 0x00#8, 0x00#8, 0x01#8, 0x78#8, 0xAA#8, 0xBB#8]
    headerValue (t.take 32) = 1 ∧ 32 + 8 * headerValue (t.take 32) ≤ t.length ∧
      decodeFrame t 1 = .ok ([0x78#8], 1) ∧ decodeFrame t 0 = .error (unencoded false 1) :=
  ⟨by decide, by decide, rfl, rfl⟩

/-- V10: the output may end at the last byte of memory, in both forms, and may start right after the message; V7: an
empty message overlaps nothing. -/
theorem witness_EncodeFrameSucceeds :
    (let s := encodeTo false 2#64 0xFFFA#64; smallMsg s ∧ msgIn s ∧ outIn s 6 ∧ ¬ outOnMsg s 6) ∧
    (let s := encodeTo true 2#64 0xFFD0#64; smallMsg s ∧ msgIn s ∧ outIn s 48 ∧ ¬ outOnMsg s 48) ∧
    (let s := encodeTo false 2#64 2#64; smallMsg s ∧ msgIn s ∧ outIn s 6 ∧ ¬ outOnMsg s 6) ∧
    (let s := encodeTo false 0#64 0#64; smallMsg s ∧ msgIn s ∧ outIn s 4 ∧ ¬ outOnMsg s 4) := by decide

/-- V10: too large; the message leaves memory; the output leaves memory, in both forms; they overlap. -/
theorem witness_EncodeFrameErrors :
    ¬ smallMsg (encodeTo false 0x100000000#64 0x40#64) ∧
    (let s := encodeTo false 0xFFFFFFFF#64 0x40#64; smallMsg s ∧ ¬ msgIn s) ∧
    (let s := encodeTo false 2#64 0xFFFB#64; smallMsg s ∧ ¬ outIn s 6) ∧
    (let s := encodeTo true 2#64 0xFFD1#64; smallMsg s ∧ ¬ outIn s 48) ∧
    (let s := encodeTo false 2#64 1#64; smallMsg s ∧ msgIn s ∧ outIn s 6 ∧ outOnMsg s 6) := by decide

/-- V12, V16: a packed frame of two bytes; the payload may end at the last byte, or start right after the input. -/
theorem witness_DecodePackedSucceeds :
    ∀ d ∈ [0x80#64, 0xFFFE#64, 0x46#64],
      let s := decodeAt true 6#64 2#64 d hiFrame
      let len := (s.mem.read 0x40).toNat * 2 ^ 24 + (s.mem.read 0x41).toNat * 2 ^ 16
        + (s.mem.read 0x42).toNat * 2 ^ 8 + (s.mem.read 0x43).toNat
      len = 2 ∧ InMem s.size 0x40 6 ∧ len ≤ s.lat.operands.cap.toNat ∧ 4 + len ≤ 6 ∧
        InMem s.size d.toNat len ∧ ¬ Overlaps d.toNat len 0x40 6 := by
  intro d hd
  fin_cases hd <;> decide

/-- V14, first row. -/
theorem witness_DecodeUnpackedSucceeds :
    let s := accepted (.decodeFrame true false)
      { srcAddr := 0x40#64, srcLen := 48#64, cap := 2#64, dstAddr := 0x80#64 } (memAt 0x40 hiPlane)
    let len := headerValue (lsbPlane (s.mem.readBytes 0x40 32))
    len = 2 ∧ InMem s.size 0x40 48 ∧ len ≤ s.lat.operands.cap.toNat ∧ 32 + 8 * len ≤ 48 ∧
      InMem s.size 0x80 len ∧ ¬ Overlaps 0x80 len 0x40 48 := by decide +kernel

/-- V13, V16: a state for each of the six ways to fail, in their order. -/
theorem witness_DecodeFrameErrors :
    ¬ srcIn (accepted (.decodeFrame false false) { srcAddr := 0xFFFFFFFFFFFFFFFF#64, srcLen := 1#64 } []) ∧
    (let s := decodeAt false 3#64 125#64 0x80#64 hiFrame; srcIn s ∧ held false s = 24) ∧
    (let s := decodeAt false 6#64 1#64 0x80#64 hiFrame; srcIn s ∧ held false s = 48 ∧ declared false s = 2) ∧
    (let s := decodeAt false 5#64 2#64 0x80#64 hiFrame; srcIn s ∧ held false s = 40 ∧ declared false s = 2) ∧
    (let s := decodeAt false 6#64 2#64 0xFFFF#64 hiFrame;
      srcIn s ∧ held false s = 48 ∧ declared false s = 2 ∧ ¬ outIn s 2) ∧
    (let s := decodeAt false 6#64 2#64 0x45#64 hiFrame;
      srcIn s ∧ held false s = 48 ∧ declared false s = 2 ∧ outIn s 2 ∧ outOnSrc s 2) := by decide

/-- V17 with P = 0. -/
theorem witness_FrameRoundTripOnMemory :
    ∃ t, exec (.encodeFrame false) (encodeTo false 2#64 0x100#64) = .next t ∧ t.status.err = .ok ∧
      let s' := accepted (.decodeFrame false false)
        { srcAddr := 0x100#64, srcLen := t.results.result, cap := 2#64, dstAddr := 0x800#64 } t.mem
      s'.mem = t.mem ∧ s'.memSize = (encodeTo false 2#64 0x100#64).memSize ∧ s'.lat.operands.srcAddr = 0x100#64 ∧
        s'.lat.operands.srcLen = t.results.result ∧ 2 ≤ s'.lat.operands.cap.toNat ∧
        InMem s'.size s'.lat.operands.dstAddr.toNat 2 ∧
        ¬ Overlaps s'.lat.operands.dstAddr.toNat 2 s'.lat.operands.srcAddr.toNat s'.lat.operands.srcLen.toNat :=
  ⟨_, rfl, by decide, by decide⟩

theorem witness_CapacityReports : (0x11#64).toNat % 16 = 1 ∧ (0x11#64) ≠ 0x01#64 := by decide

/-- An element that takes a 1 (position 30), one past the frame, and the whole embed. -/
theorem witness_EmbedElements :
    ∃ out, embedPixels (List.replicate 64 0x10#8) hi = .ok out ∧
      (List.replicate 64 0x10#8)[30]? = some 0x10#8 ∧ out[30]? = some 0x11#8 ∧
      (expand (be32 hi.length ++ hi))[30]? = some true ∧ 8 * (4 + hi.length) ≤ 48 ∧ out[48]? = some 0x10#8 :=
  ⟨_, rfl, by decide, by decide, by decide, by decide, by decide⟩

theorem witness_EmbedExtractRoundTrip :
    hi.length < 2 ^ 32 ∧ 4 + hi.length ≤ (List.replicate 48 0xFF#8).length / 8 := by decide

/-- V25, V26: in place, as a copy, and copies that end at either edge. -/
theorem witness_EmbedSucceeds :
    (let s := embedTo 0x100#64; smallMsg s ∧ 4 + 2 ≤ 64 / 8 ∧ srcIn s ∧ msgIn s ∧ outIn s 48 ∧ ¬ outOnMsg s 48 ∧
      s.lat.operands.dstAddr = s.lat.operands.srcAddr) ∧
    (let s := embedTo 0x300#64; smallMsg s ∧ srcIn s ∧ msgIn s ∧ outIn s 64 ∧ ¬ outOnMsg s 64 ∧ ¬ outOnSrc s 64) ∧
    (let s := embedTo 0xFFC0#64; smallMsg s ∧ srcIn s ∧ msgIn s ∧ outIn s 64 ∧ ¬ outOnMsg s 64 ∧ ¬ outOnSrc s 64) ∧
    (let s := embedTo 0x0C0#64; smallMsg s ∧ srcIn s ∧ msgIn s ∧ outIn s 64 ∧ ¬ outOnMsg s 64 ∧ ¬ outOnSrc s 64) := by
  decide

/-- V26: too large; capacity; each of the three ranges; each of the two overlaps. -/
theorem witness_EmbedErrors :
    ¬ smallMsg (embedOf 0#64 0x100000000#64 0x100#64 64#64 0x100#64) ∧
    (smallMsg (embedOf 0#64 2#64 0xFFFFFFFFFFFFFFFF#64 47#64 0x100#64) ∧ 47 / 8 < 4 + 2) ∧
    (let s := embedOf 0#64 2#64 0xFFF0#64 64#64 0xFFF0#64; smallMsg s ∧ 4 + 2 ≤ 64 / 8 ∧ ¬ srcIn s) ∧
    (let s := embedOf 0xFFFF#64 2#64 0x100#64 64#64 0x100#64; smallMsg s ∧ ¬ msgIn s) ∧
    (let s := embedTo 0xFFE0#64; smallMsg s ∧ ¬ outIn s 64) ∧
    (let s := embedTo 0#64; smallMsg s ∧ srcIn s ∧ msgIn s ∧ outIn s 64 ∧ outOnMsg s 64) ∧
    (let s := embedTo 0x101#64; smallMsg s ∧ srcIn s ∧ msgIn s ∧ outIn s 64 ∧ ¬ outOnMsg s 64 ∧ outOnSrc s 64) := by
  decide

/-- V27: 48 elements, at a distance and right after the buffer. -/
theorem witness_ExtractSucceeds :
    ∀ d ∈ [0x800#64, 0x130#64],
      let s := extractAt true 48#64 d hiPlane
      let len := headerValue (lsbPlane (s.mem.readBytes 0x100 32))
      len = 2 ∧ InMem s.size 0x100 48 ∧ 32 + 8 * len ≤ 48 ∧ InMem s.size d.toNat len ∧
        ¬ Overlaps d.toNat len 0x100 48 := by
  intro d hd
  fin_cases hd <;> decide +kernel

/-- V27: a state for each of the six ways to fail, in their order. -/
theorem witness_ExtractErrors :
    ¬ srcIn (accepted (.extract false) { srcAddr := 0xFFFFFFFFFFFFFFF0#64, srcLen := 0x20#64 } []) ∧
    (let s := extractAt false 31#64 0x800#64 []; srcIn s ∧ held true s = 31) ∧
    (let s := extractAt false 32#64 0x800#64 (List.replicate 32 0xFF#8);
      srcIn s ∧ held true s = 32 ∧ declared true s = 0xFFFFFFFF) ∧
    (let s := extractAt false 47#64 0x800#64 hiPlane;
      srcIn s ∧ held true s = 47 ∧ declared true s = 2 ∧ 47 / 8 < 2 + 4 ∧ 2 ≤ 47 / 8) ∧
    (let s := extractAt false 48#64 0xFFFF#64 hiPlane;
      srcIn s ∧ held true s = 48 ∧ declared true s = 2 ∧ ¬ outIn s 2) ∧
    (let s := extractAt false 48#64 0x12F#64 hiPlane;
      srcIn s ∧ held true s = 48 ∧ declared true s = 2 ∧ outIn s 2 ∧ outOnSrc s 2) := by decide +kernel

theorem witness_EmbedCapacityBoundary :
    (embedTo 0x300#64).lat.operands.msgLen.toNat < 2 ^ 32 ∧ ∃ t, exec .embed (embedTo 0x300#64) = .next t :=
  ⟨by decide, _, rfl⟩

/-- V28. -/
theorem witness_ExtractIsUnpackedDecode :
    let s := extractAt false 48#64 0x800#64 hiPlane
    let s' := accepted (.decodeFrame true false)
      { srcAddr := 0x100#64, srcLen := 48#64, cap := 6#64, dstAddr := 0x800#64 } (memAt 0x100 hiPlane)
    (s'.mem = s.mem ∧ s'.memSize = s.memSize ∧ s'.lat.operands.srcAddr = s.lat.operands.srcAddr ∧
      s'.lat.operands.srcLen = s.lat.operands.srcLen ∧ s'.lat.operands.dstAddr = s.lat.operands.dstAddr ∧
      s'.lat.operands.cap.toNat = s.lat.operands.srcLen.toNat / 8 ∧ s'.status.rej = s.status.rej) ∧
    (∃ t, exec (.extract false) s = .next t) ∧ ∃ t, exec (.decodeFrame true false) s' = .next t :=
  ⟨by decide, ⟨_, rfl⟩, _, rfl⟩

/-- V27: 32 bytes of 0xFE. -/
theorem witness_ZeroHeaderIsEmptyMessage :
    let s := extractAt true 32#64 0x800#64 (List.replicate 32 0xFE#8)
    32 ≤ s.lat.operands.srcLen.toNat ∧
      InMem s.size s.lat.operands.srcAddr.toNat s.lat.operands.srcLen.toNat ∧
      (∀ i, i < 32 → (s.mem.read (s.lat.operands.srcAddr.toNat + i)).getLsbD 0 = false) := by decide

/-- V25, then EXTRACT from the copy and from the buffer in place. -/
theorem witness_EmbedExtractOnMemory :
    ∀ d ∈ [0x300#64, 0x100#64],
      ∃ t, exec .embed (embedTo d) = .next t ∧ t.status.err = .ok ∧
        let s' := accepted (.extract false) { srcAddr := d, srcLen := 64#64, dstAddr := 0x800#64 } t.mem
        s'.mem = t.mem ∧ s'.memSize = (embedTo d).memSize ∧
          s'.lat.operands.srcAddr = (embedTo d).lat.operands.dstAddr ∧
          s'.lat.operands.srcLen = (embedTo d).lat.operands.srcLen ∧
          InMem s'.size s'.lat.operands.dstAddr.toNat 2 ∧
          ¬ Overlaps s'.lat.operands.dstAddr.toNat 2 s'.lat.operands.srcAddr.toNat s'.lat.operands.srcLen.toNat := by
  intro d hd
  fin_cases hd
  · exact ⟨_, rfl, by decide, by decide +kernel⟩
  · exact ⟨_, rfl, by decide, by decide +kernel⟩

theorem witness_EndOfRunIsQuiet :
    (State.reset.turns = [] ∧ GoodEnd State.reset) ∧
    ((embedTo 0x300#64).turns = [] ∧ (embedTo 0x300#64).host = [] ∧ (embedTo 0x300#64).phase = .busy ∧
      (embedTo 0x300#64).hazardFault = false) := by decide

end Sys2Proof.Tests
end

section
/-! MEM_SIZE is a parameter of the machine (spec/00_scope.md R8): a frame fact of each kind of move, and of the
step. -/

namespace Sys2Proof.Machine

open Sys2Proof.Safety

/-! ### What each move leaves of MEM_SIZE -/

@[simp] theorem completeIllegal_memSize (s : State) : (completeIllegal s).memSize = s.memSize := rfl

/-- Handing the move to the host leaves MEM_SIZE. -/
theorem hostMoves_memSize {s t : State} {op : HostOp} (h : HostMoves s op t) : t.memSize = s.memSize := by
  rw [hostMoves_eq h]

/-- Handing the move to the engine leaves MEM_SIZE. -/
theorem engineMoves_memSize {s t : State} (h : EngineMoves s t) : t.memSize = s.memSize := by
  rw [engineMoves_eq h]

/-- No operation of the host reaches MEM_SIZE: it has no register and no address. -/
theorem hostDid_memSize {s t : State} {op : HostOp} (h : HostDid s op t) : t.memSize = s.memSize := by
  cases h with
  | accepted => exact accept_memSize s _
  | rejected => exact reject_memSize s
  | operand => rfl
  | read => exact receive_memSize s _
  | hazard => rfl
  | store => rfl
  | draw => exact receive_memSize { s with draws := s.draws + 1 } _
  | load => exact receive_memSize s _
  | polled => exact receive_memSize s _
  | pollAgain => exact receive_memSize s (.reg 0x10 (readOffset s 0x10))

/-- The frame of one step on MEM_SIZE, move by move. -/
theorem stepDid_memSize {s t : State} (h : StepDid s t) : t.memSize = s.memSize := by
  cases h with
  | reset rest => exact assertReset_memSize { s with turns := rest }
  | release rest => exact releaseReset_memSize { s with turns := rest }
  | waited => rfl
  | host op t₀ _ _ hmoves hdid => exact (hostDid_memSize hdid).trans (hostMoves_memSize hmoves)
  | completed i t₀ r _ _ hmoves => exact (complete_memSize t₀ r).trans (engineMoves_memSize hmoves)
  | illegal t₀ why _ _ hmoves => exact (completeIllegal_memSize t₀).trans (engineMoves_memSize hmoves)

end Sys2Proof.Machine

/-- Settles O31, by the cases of a step (R236): the host's operation, the engine's completion and the reset input
each leave MEM_SIZE. -/
theorem memSizeFixed : Obligations.MemSizeFixed := by
  unfold Obligations.MemSizeFixed
  intro s t h
  exact Sys2Proof.Machine.stepDid_memSize (Sys2Proof.Machine.step_cases h)

end

section
/-! The host's moves at the register block, forwards (spec/10_state.md R22 to R43): what a register read, a register
write and a refused access make of a step, and the table of R22 by register name. -/

namespace Sys2Proof.Machine

open Sys2Proof.Safety

/-! ### The move taken off the schedule -/

/-- The state from which a host operation runs differs from the state of the step in the schedule and the program. -/
theorem hostMoves_takenOff {s t : State} {op : HostOp} (h : HostMoves s op t) :
    ∃ ts ops, t = { s with turns := ts, host := ops } := ⟨t.turns, t.host, hostMoves_eq h⟩

/-- The state from which the engine moves differs from the state of the step in the schedule. -/
theorem engineMoves_takenOff {s t : State} (h : EngineMoves s t) : ∃ ts, t = { s with turns := ts } :=
  ⟨t.turns, engineMoves_eq h⟩

theorem hostMoves_phase {s t : State} {op : HostOp} (h : HostMoves s op t) : t.phase = s.phase := by
  rw [hostMoves_eq h]

/-! ### Register accesses -/

/-- R39: a legal register read hands over the value at the offset and does nothing else. -/
theorem step_regRead {s t : State} {off : Nat} (hm : HostMoves s (.regRead off 64) t) (hz : s.hazardFault = false)
    (hr : s.resetLine = false) (hl : LegalAccess off 64) :
    step s = .next { t with received := .reg off (readOffset s off) :: s.received } := by
  rw [step_hostMoves hm hz]
  obtain ⟨ts, ops, rfl⟩ := hostMoves_takenOff hm
  exact regAccess_legal _ hr hl

/-- A legal register write is the write at its offset. -/
theorem step_regWrite {s t : State} {off : Nat} {v : Word} (hm : HostMoves s (.regWrite off 64 v) t)
    (hz : s.hazardFault = false) (hr : s.resetLine = false) (hl : LegalAccess off 64) :
    step s = .next (writeOffset t off v) := by
  rw [step_hostMoves hm hz]
  obtain ⟨ts, ops, rfl⟩ := hostMoves_takenOff hm
  exact regAccess_legal _ hr hl

theorem step_readReg {s t : State} {r : RegName} (hm : HostMoves s (.regRead (regOffset r) 64) t)
    (hz : s.hazardFault = false) (hr : s.resetLine = false) :
    step s = .next { t with received := .reg (regOffset r) (readReg s r) :: s.received } := by
  rw [step_regRead hm hz hr (regOffset_legal r), readOffset_regOffset]

theorem step_writeReg {s t : State} {r : RegName} {v : Word} (hm : HostMoves s (.regWrite (regOffset r) 64 v) t)
    (hz : s.hazardFault = false) (hr : s.resetLine = false) : step s = .next (writeReg t v r) := by
  rw [step_regWrite hm hz hr (regOffset_legal r), writeOffset_regOffset]

/-- R220: during reset a register access is refused, whatever it is. -/
theorem regAccess_inReset {s : State} (off width : Nat) (after : State) (hr : s.resetLine = true) :
    regAccess s off width after = .refused .registerAccessInReset := by
  rw [regAccess, if_pos hr]

/-- R37: an access with no meaning is refused. -/
theorem regAccess_bad {s : State} {off width : Nat} (after : State) (hr : s.resetLine = false)
    (hl : ¬ LegalAccess off width) : regAccess s off width after = .refused .badRegisterAccess := by
  rw [regAccess, hr, if_neg Bool.false_ne_true, if_neg hl]

/-! ### R22's table by register -/

/-- R25: the registers that hold operands. -/
def operandRegs : List RegName := [.msgAddr, .msgLen, .srcAddr, .srcLen, .dstAddr, .cap]

/-- R38: the registers that ignore writes. -/
def readOnlyRegs : List RegName := [.id, .status, .result, .declLen, .needed, .avail, .utilNum, .utilDen]

theorem writeReg_readOnly (s : State) (v : Word) {r : RegName} (h : r ∈ readOnlyRegs) : writeReg s v r = s := by
  fin_cases h <;> rfl

/-- A write to an operand register reaches the operands and nothing else. -/
theorem writeReg_operand (s : State) (v : Word) {r : RegName} (h : r ∈ operandRegs) :
    writeReg s v r = { s with operands := (writeReg s v r).operands } := by
  fin_cases h <;> rfl

/-- What the operands become depends on the operands that stood there. -/
theorem writeReg_operands_congr {s t : State} (v : Word) {r : RegName} (h : r ∈ operandRegs)
    (ho : t.operands = s.operands) : (writeReg t v r).operands = (writeReg s v r).operands := by
  fin_cases h <;> simp only [writeReg, ho]

theorem readReg_writeReg_same (s : State) (v : Word) {r : RegName} (h : r ∈ operandRegs) :
    readReg (writeReg s v r) r = v := by
  fin_cases h <;> rfl

theorem readReg_writeReg_other (s : State) (v : Word) {r r' : RegName} (h : r ∈ operandRegs) (hne : r' ≠ r) :
    readReg (writeReg s v r) r' = readReg s r' := by
  fin_cases h
  all_goals cases r' <;> simp [writeReg, readReg] at hne ⊢

/-- R24, R40: a write to CMD while IDLE is acceptance. -/
theorem writeReg_cmd_idle {s : State} (v : Word) (hp : s.phase = .idle) : writeReg s v .cmd = accept s v := by
  simp only [writeReg, writeCmd, hp]

/-- R43: a write to CMD while BUSY is rejection. -/
theorem writeReg_cmd_busy {s : State} (v : Word) (hp : s.phase = .busy) : writeReg s v .cmd = reject s := by
  simp only [writeReg, writeCmd, hp]

/-! ### The STATUS word, bit by bit (R26) -/

/-- The fields of STATUS stand side by side below bit 17, so the word loses none of them. -/
theorem statusWord_fields (ph : Phase) (st : Status) : (statusWord ph st).toNat =
    (busyBit ph).toNat + 2 * st.done.toNat + 16 * errNumber st.err + 256 * st.warnUtf8.toNat
      + 512 * st.ovr.toNat + 65536 * st.rej.toNat ∧
    (busyBit ph).toNat ≤ 1 ∧ st.done.toNat ≤ 1 ∧ errNumber st.err ≤ 6 ∧ st.warnUtf8.toNat ≤ 1 ∧
    st.ovr.toNat ≤ 1 ∧ st.rej.toNat ≤ 1 := by
  have hbusy := Bool.toNat_le (busyBit ph)
  have hdone := Bool.toNat_le st.done
  have herr : errNumber st.err ≤ 6 := by cases st.err <;> decide
  have hwarn := Bool.toNat_le st.warnUtf8
  have hovr := Bool.toNat_le st.ovr
  have hrej := Bool.toNat_le st.rej
  exact ⟨toNat_ofNat_of_lt (by omega), hbusy, hdone, herr, hwarn, hovr, hrej⟩

/-- Bit `k` of a word is `b` when the quotient by `2 ^ k` has the parity of `b`. -/
theorem getLsbD_eq_of_div {w : Word} {k : Nat} {b : Bool} (h : w.toNat / 2 ^ k % 2 = b.toNat) : w.getLsbD k = b := by
  rw [BitVec.getLsbD, Nat.testBit_eq_decide_div_mod_eq, h]
  cases b <;> rfl

theorem readReg_status (s : State) : readReg s .status = statusWord s.phase s.status := rfl

/-- R27: BUSY is bit 0. -/
theorem statusWord_bit0 (ph : Phase) (st : Status) : (statusWord ph st).getLsbD 0 = busyBit ph := by
  obtain ⟨hw, _⟩ := statusWord_fields ph st
  exact getLsbD_eq_of_div (by omega)

end Sys2Proof.Machine

open Sys2Proof Sys2Proof.Machine Sys2Proof.Safety

/-- Settles O6: R22's table is the offset and the value of each register in turn, and a read at the offset of a
register hands over its value. -/
theorem hostReadsRegister : Obligations.HostReadsRegister := by
  unfold Obligations.HostReadsRegister
  intro s t off v hrow hm hz hr
  change (off, v) ∈ allRegs.map (fun r => (regOffset r, readReg s r)) at hrow
  obtain ⟨r, -, he⟩ := List.mem_map.1 hrow
  cases he
  exact step_readReg hm hz hr

/-- Settles O7: no register stands from 0x78 on, a write to a read-only register is the identity, and no field of
STATUS stands at a reserved bit. -/
theorem reservedOffsetsAndReadOnly : Obligations.ReservedOffsetsAndReadOnly := by
  unfold Obligations.ReservedOffsetsAndReadOnly
  refine ⟨fun s t off hlo hhi hal hz hr => ⟨fun hm => ?_, fun v hm => ?_⟩, fun s t off v hoff hm hz hr => ?_,
    fun s k hk => ?_⟩
  · rw [step_regRead hm hz hr ⟨rfl, hal, hhi⟩, readOffset_reserved s hlo]
  · rw [step_regWrite hm hz hr ⟨rfl, hal, hhi⟩, writeOffset_reserved t v hlo]
  · change off ∈ readOnlyRegs.map regOffset at hoff
    obtain ⟨r, hro, rfl⟩ := List.mem_map.1 hoff
    rw [step_writeReg hm hz hr, writeReg_readOnly t v hro]
  · obtain ⟨hw, hb⟩ := statusWord_fields s.phase s.status
    rw [readReg_status]
    refine getLsbD_eq_of_div (b := false) ?_
    rcases hk with hk | ⟨hlo, hhi⟩ | hk
    · fin_cases hk <;> (dsimp only [Bool.toNat_false]; omega)
    · interval_cases k <;> (dsimp only [Bool.toNat_false]; omega)
    · have hlarge : 2 ^ 17 ≤ 2 ^ k := Nat.pow_le_pow_right (by omega) hk
      rw [Nat.div_eq_of_lt (by omega), Bool.toNat_false]

/-- Settles O8: each field of the STATUS word is its quotient and remainder. -/
theorem statusFields : Obligations.StatusFields := by
  unfold Obligations.StatusFields
  intro s
  obtain ⟨hw, hb⟩ := statusWord_fields s.phase s.status
  rw [readReg_status]
  have herr : (statusWord s.phase s.status).toNat / 16 % 16 = errNumber s.status.err := by omega
  refine ⟨?_, getLsbD_eq_of_div (by omega), ?_, getLsbD_eq_of_div (by omega), getLsbD_eq_of_div (by omega),
    getLsbD_eq_of_div (by omega)⟩
  · rw [statusWord_bit0]
    cases s.phase <;> decide
  · rw [herr]
    cases s.status.err <;> decide

/-- Settles O9: a row of the list is an operand register, its offset and the operands a write of it leaves. -/
theorem hostWritesOperand : Obligations.HostWritesOperand := by
  unfold Obligations.HostWritesOperand
  intro s t off r v o hrow hm hz hr
  change (off, r, o) ∈ operandRegs.map (fun r => (regOffset r, r, (writeReg s v r).operands)) at hrow
  obtain ⟨_, hreg, he⟩ := List.mem_map.1 hrow
  cases he
  have hsame : (writeReg t v r).operands = (writeReg s v r).operands :=
    writeReg_operands_congr v hreg (by rw [hostMoves_eq hm])
  rw [← hsame, ← writeReg_operand t v hreg]
  refine ⟨step_writeReg hm hz hr, readReg_writeReg_same t v hreg, fun r' hne => ?_⟩
  rw [readReg_writeReg_other t v hreg hne, hostMoves_eq hm]
  rfl

/-- Settles O11, by the rejecting write to CMD. -/
theorem cmdWriteRejected : Obligations.CmdWriteRejected := by
  unfold Obligations.CmdWriteRejected
  intro s t v hm hz hr hb
  rw [step_writeReg (r := .cmd) hm hz hr, writeReg_cmd_busy v ((hostMoves_phase hm).trans hb)]
  obtain ⟨ts, ops, rfl⟩ := hostMoves_takenOff hm
  rfl

/-- Settles O12: `poll` and the two register accesses all pass through `regAccess`, which refuses. -/
theorem registerAccessRefused : Obligations.RegisterAccessRefused := by
  unfold Obligations.RegisterAccessRefused
  intro s t op hm hz
  rw [step_hostMoves hm hz]
  obtain ⟨ts, ops, rfl⟩ := hostMoves_takenOff hm
  refine ⟨fun hr hop => ?_, fun hr off width hop hbad => ?_⟩
  · rcases hop with rfl | ⟨off, width, rfl | ⟨v, rfl⟩⟩
    all_goals exact regAccess_inReset _ _ _ hr
  · have hl : ¬ LegalAccess off width := by
      rintro ⟨hw, hal, hhi⟩
      omega
    rcases hop with rfl | ⟨v, rfl⟩
    all_goals exact regAccess_bad _ hr hl

/-- Settles O34, register by register. -/
theorem resetValues : Obligations.ResetValues := by
  unfold Obligations.ResetValues
  exact ⟨fun r => by cases r <;> decide, rfl, rfl, rfl, rfl⟩

end

section
/-! Completion and progress (spec/10_state.md R44, R46, spec/30_encoding.md R101): the engine's turn forwards, and
what a completion leaves unchanged. -/

namespace Sys2Proof.Machine

open Sys2Proof.Safety

/-! ### The engine's turn -/

/-- R46: an IDLE engine's turn is not enabled. -/
theorem engineTurn_idle {s : State} (hz : s.hazardFault = false) (hi : s.phase = .idle) : engineTurn s = .next s := by
  rw [engineTurn, hz, if_neg Bool.false_ne_true, hi]

/-- R96: an illegal word completes. -/
theorem engineTurn_illegal {s : State} {why : IllegalWord} (hz : s.hazardFault = false) (hb : s.phase = .busy)
    (hd : decode s.lat.cmd = .illegal why) : engineTurn s = .next (completeIllegal s) := by
  rw [engineTurn, hz, if_neg Bool.false_ne_true, hb, hd]

/-- R46: a BUSY engine's turn completes the command, whatever word was latched. -/
theorem engineTurn_completes {s : State} (hz : s.hazardFault = false) (hb : s.phase = .busy) :
    ∃ r, engineTurn s = .next (complete s r) := by
  cases hd : decode s.lat.cmd with
  | legal i =>
    obtain ⟨r, he, -⟩ := exec_effect i s
    exact ⟨r, (engineTurn_eq hz hb hd).trans he⟩
  | illegal why => exact ⟨_, engineTurn_illegal hz hb hd⟩

/-- The BUSY engine moves, and the step is a completion. -/
theorem step_completes {s t : State} (hm : EngineMoves s t) (hz : s.hazardFault = false) (hb : s.phase = .busy) :
    ∃ r, step s = .next (complete t r) := by
  rw [step_engineMoves hm]
  obtain ⟨ts, rfl⟩ := engineMoves_takenOff hm
  exact engineTurn_completes hz hb

/-! ### `poll` -/

theorem hostPoll_idle {s : State} (hi : s.phase = .idle) :
    hostPoll s = receive s (.reg 0x10 (readReg s .status)) := by
  simp only [hostPoll, hi]
  rw [← readOffset_regOffset s .status, regOffset]

theorem hostPoll_busy {s : State} (hb : s.phase = .busy) :
    hostPoll s = { receive s (.reg 0x10 (readReg s .status)) with host := .poll :: s.host } := by
  simp only [hostPoll, hb]
  rw [← readOffset_regOffset s .status, regOffset, receive_host]

/-- R101: a poll that reads BUSY = 0 ends. -/
theorem step_poll_idle {s t : State} (hm : HostMoves s .poll t) (hz : s.hazardFault = false)
    (hr : s.resetLine = false) (hi : s.phase = .idle) :
    step s = .next { t with received := .reg 0x10 (readReg s .status) :: s.received } := by
  rw [step_hostMoves hm hz, hostOperation, hostPoll_idle ((hostMoves_phase hm).trans hi)]
  obtain ⟨ts, ops, rfl⟩ := hostMoves_takenOff hm
  exact regAccess_legal _ hr (regOffset_legal .status)

/-- R101: a poll that reads BUSY = 1 is run again. -/
theorem step_poll_busy {s t : State} (hm : HostMoves s .poll t) (hz : s.hazardFault = false)
    (hr : s.resetLine = false) (hb : s.phase = .busy) :
    step s = .next { t with host := .poll :: t.host, received := .reg 0x10 (readReg s .status) :: s.received } := by
  rw [step_hostMoves hm hz, hostOperation, hostPoll_busy ((hostMoves_phase hm).trans hb)]
  obtain ⟨ts, ops, rfl⟩ := hostMoves_takenOff hm
  exact regAccess_legal _ hr (regOffset_legal .status)

/-! ### Commands and the live operand registers -/

/-- R41: a command reads the latched operands, so the live ones pass through its completion. -/
theorem exec_setOperands {i : Instr} {s t : State} (o : Operands) (h : exec i s = .next t) :
    exec i { s with operands := o } = .next { t with operands := o } := by
  cases i
  all_goals
    cases h
    rfl

theorem exec_operands {i : Instr} {s t : State} (h : exec i s = .next t) : t.operands = s.operands := by
  obtain ⟨r, he, -⟩ := exec_effect i s
  cases he.symm.trans h
  exact complete_operands s r

end Sys2Proof.Machine

open Sys2Proof Sys2Proof.Machine Sys2Proof.Safety

/-- Settles O20, by the engine's turn in each phase. -/
theorem completionEnabledExactlyWhenBusy : Obligations.CompletionEnabledExactlyWhenBusy := by
  unfold Obligations.CompletionEnabledExactlyWhenBusy
  intro s t hm hz
  refine ⟨fun hb => ?_, fun hi => ?_⟩
  · obtain ⟨r, hstep⟩ := step_completes hm hz hb
    exact ⟨_, hstep, complete_phase t r, rfl⟩
  · rw [step_engineMoves hm]
    obtain ⟨ts, rfl⟩ := engineMoves_takenOff hm
    exact engineTurn_idle hz hi

/-- Settles O28, by induction on the host turns scheduled before the engine moves: each is one more read of
BUSY = 1, and with none left the engine completes and the next read ends the poll. -/
theorem pollEnds : Obligations.PollEnds := by
  unfold Obligations.PollEnds
  intro n
  induction n with
  | zero =>
    intro s rest hb hz hr hhost hturns
    obtain ⟨r, hdone⟩ := step_completes (Or.inl ⟨hturns, hb, rfl⟩) hz hb
    have hread := step_poll_idle (s := complete s r) (t := { complete s r with host := rest })
      ⟨hhost, Or.inl ⟨hturns, rfl, rfl⟩⟩ hz hr rfl
    refine ⟨_, _, (run_of_step 1 hdone).trans (run_of_step 0 hread), rfl, rfl, rfl, ?_, rfl⟩
    exact statusWord_bit0 .idle (complete s r).status
  | succ n ih =>
    intro s rest hb hz hr hhost hturns
    have hread := step_poll_busy (s := s) (t := { s with turns := List.replicate n .host, host := rest })
      ⟨hhost, Or.inr ⟨hturns, rfl⟩⟩ hz hr hb
    obtain ⟨t, w, hrun, hleft, hidle, hlast, hbit, hlen⟩ := ih
      { s with
        turns := List.replicate n .host
        host := .poll :: rest
        received := .reg 0x10 (readReg s .status) :: s.received }
      rest hb hz hr rfl rfl
    refine ⟨t, w, (run_of_step (n + 2) hread).trans hrun, hleft, hidle, hlast, hbit, ?_⟩
    rw [hlen, List.length_cons]
    omega

/-- Settles O10: the accepting write to CMD, then the completion of an illegal word. -/
theorem cmdWriteAccepted : Obligations.CmdWriteAccepted := by
  unfold Obligations.CmdWriteAccepted
  intro s t v hm hz hr hi
  have hstep : step s = .next (writeReg t v .cmd) := step_writeReg (r := .cmd) hm hz hr
  rw [writeReg_cmd_idle v ((hostMoves_phase hm).trans hi)] at hstep
  obtain ⟨ts, ops, rfl⟩ := hostMoves_takenOff hm
  refine ⟨hstep, fun e why hd hme => ?_⟩
  rw [step_engineMoves hme]
  obtain ⟨ts', rfl⟩ := engineMoves_takenOff hme
  exact engineTurn_illegal hz rfl hd

/-- Settles O18, by the engine's turn at a legal word. -/
theorem stepRunsDecoded : Obligations.StepRunsDecoded := by
  unfold Obligations.StepRunsDecoded
  intro s t i hm hb hz hd
  rw [step_engineMoves hm]
  obtain ⟨ts, rfl⟩ := engineMoves_takenOff hm
  exact engineTurn_eq hz hb hd

/-- Settles O21: every command ends in `complete`. -/
theorem completionFrame : Obligations.CompletionFrame := by
  unfold Obligations.CompletionFrame
  intro i s
  obtain ⟨r, he, -⟩ := exec_effect i s
  exact ⟨_, he, complete_phase s r, rfl, rfl, complete_footprint s r, rfl⟩

/-- Settles O22: the write reaches only the live operands, and the completion passes them through. -/
theorem operandWriteCommutesWithCompletion : Obligations.OperandWriteCommutesWithCompletion := by
  unfold Obligations.OperandWriteCommutesWithCompletion
  intro i s t r v hr h
  rw [writeReg_operand s v hr, writeReg_operand t v hr, writeReg_operands_congr v hr (exec_operands h)]
  exact exec_setOperands _ h

/-- Settles O25, by the two ends of a command: an error leaves memory, and a success writes RESULT bytes at DST_ADDR,
none for CAPACITY. -/
theorem commandsStoreOnlyTheirOutput : Obligations.CommandsStoreOnlyTheirOutput := by
  unfold Obligations.CommandsStoreOnlyTheirOutput
  intro i s t h a houtside
  obtain ⟨r, he, heffect⟩ := exec_effect i s
  cases he.symm.trans h
  cases heffect with
  | error r => rfl
  | success bytes warn regs _ hresult hnothing =>
    refine Memory.read_writeBytes_outside s.mem ?_
    by_cases hi : i = .capacity
    · rw [hnothing hi, List.length_nil]
      omega
    · rw [← hresult hi]
      exact houtside.resolve_left hi

end

section
/-! The machine's invariant (Safety.lean), the hazard flag (spec/10_state.md R49) and reset (R50), each from the
cases of a step. -/

namespace Sys2Proof.Machine

open Sys2Proof.Safety

/-! ### What a command's effect says of the invariant's parts -/

section
variable {i : Instr} {s : State} {r : CmdResult}

/-- R198: an illegal word ends as an erroneous command does. -/
theorem illegalWord_effect (i : Instr) (s : State) : Effect i s (raise s.mem { err := .illegalCmd }) :=
  .error _ (by simp) (by simp) rfl rfl rfl

theorem Effect.mem_wf (h : Effect i s r) (hm : s.mem.wf) : r.mem.wf := by
  cases h with
  | error => exact hm
  | success => exact Memory.wf_writeBytes _ _ hm

theorem Effect.mem_inside (h : Effect i s r) (hm : ∀ c ∈ s.mem, c.1 < s.size) : ∀ c ∈ r.mem, c.1 < s.size := by
  cases h with
  | error => exact hm
  | success _ _ _ hin => exact Memory.inside_writeBytes hm hin

theorem Effect.warn_only_ok (h : Effect i s r) (hw : r.warnUtf8 = true) : r.err = .ok := by
  cases h with
  | error => cases hw
  | success => rfl

theorem Effect.ovr_only_unencoded (h : Effect i s r) (ho : r.ovr = true) : r.err = .invalidOrUnencoded := by
  cases h with
  | error r _ hovr => exact hovr ho
  | success => cases ho

theorem Effect.error_no_result (h : Effect i s r) (he : r.err ≠ .ok) :
    r.regs.result = 0#64 ∧ r.regs.utilNum = 0#64 ∧ r.regs.utilDen = 0#64 := by
  cases h with
  | error r _ _ hresult hnum hden => exact ⟨hresult, hnum, hden⟩
  | success => exact (he rfl).elim

theorem Effect.util_fraction (h : Effect i s r) : (r.regs.utilNum = 0#64 ∧ r.regs.utilDen = 0#64) ∨
    (0 < r.regs.utilNum.toNat ∧ r.regs.utilNum.toNat ≤ r.regs.utilDen.toNat) := by
  cases h with
  | error r _ _ _ hnum hden => exact Or.inl ⟨hnum, hden⟩
  | success _ _ _ _ _ _ _ hutil => exact hutil

end

/-! ### Reset scrambles inside data memory -/

theorem clipRange_inMem (size a n : Nat) : InMem size (clipRange size a n).base (clipRange size a n).size := by
  simp only [InMem, clipRange]
  omega

/-- R75: every range of a command's WS is cut at MEM_SIZE. -/
theorem footprintOf_writes_inMem (size : Nat) (lat : Latched) :
    ∀ q ∈ (footprintOf size lat).writes, InMem size q.base q.size := by
  unfold footprintOf
  dsimp only
  repeat' split
  all_goals simp [clipRange_inMem]

theorem inside_scramble (k : Nat) {m : Memory} {size : Nat} {rs : List AddrRange} (hm : ∀ c ∈ m, c.1 < size)
    (hrs : ∀ q ∈ rs, InMem size q.base q.size) : ∀ c ∈ scramble k m rs, c.1 < size := by
  induction rs generalizing m with
  | nil => exact hm
  | cons q rs ih =>
    refine ih (Memory.inside_writeBytes hm ?_) fun p hp => hrs p (List.mem_cons_of_mem _ hp)
    rw [length_freeBytes]
    exact hrs q List.mem_cons_self

/-! ### The invariant through each kind of move -/

/-- The invariant speaks neither of the live operands, nor of HAZARD_FAULT, nor of what surrounds the block. -/
theorem invariant_frame {s : State} (h : Invariant s) (o : Operands) (hazard : Bool) (ops : List HostOp)
    (ts : List Turn) (log : List HostRead) (k : Nat) :
    Invariant { s with
      operands := o, hazardFault := hazard, host := ops, turns := ts, received := log, draws := k } :=
  { h with }

/-- R50: every piece of block state at its value after reset, over any canonical memory inside MEM_SIZE. -/
theorem invariant_cleared (s : State) (hwf : s.mem.wf) (hin : ∀ c ∈ s.mem, c.1 < s.size) :
    Invariant { s with
      cmd := 0#64, operands := {}, status := {}, results := {}, phase := .idle, lat := {}, footprint := {} } where
  memory_wf := hwf
  memory_inside := hin
  cmd_latched := rfl
  busy_status := nofun
  busy_results := nofun
  busy_footprint := nofun
  idle_footprint _ := rfl
  idle_not_done _ _ := ⟨rfl, rfl, rfl⟩
  warn_only_ok _ := rfl
  ovr_only_unencoded := nofun
  error_no_result _ := ⟨rfl, rfl, rfl⟩
  util_fraction := Or.inl ⟨rfl, rfl⟩
  reset_idle _ := rfl

theorem invariant_resetWith (n : Fin (2 ^ 64 + 1)) : Invariant (State.resetWith n) :=
  invariant_cleared (State.resetWith n) Memory.wf_nil nofun

/-- R40 to R42: acceptance, with reset released. -/
theorem invariant_accept {s : State} (h : Invariant s) (v : Word) (hr : s.resetLine = false) :
    Invariant (accept s v) where
  memory_wf := h.memory_wf
  memory_inside := h.memory_inside
  cmd_latched := rfl
  busy_status _ := rfl
  busy_results _ := rfl
  busy_footprint _ := rfl
  idle_footprint := nofun
  idle_not_done := nofun
  warn_only_ok _ := rfl
  ovr_only_unencoded := nofun
  error_no_result _ := ⟨rfl, rfl, rfl⟩
  util_fraction := Or.inl ⟨rfl, rfl⟩
  reset_idle hline := absurd (hr.symm.trans hline) Bool.false_ne_true

/-- R43: rejection, which happens only while BUSY. -/
theorem invariant_reject {s : State} (h : Invariant s) (hb : s.phase = .busy) : Invariant (reject s) :=
  { h with
    busy_status := fun _ => by rw [reject_status, h.busy_status hb]
    idle_not_done := fun hi => by rw [reject_phase, hb] at hi; cases hi }

/-- R84: a host store inside data memory. -/
theorem invariant_store {s : State} (h : Invariant s) (a : Nat) (v : Byte) (ha : a < s.size) :
    Invariant { s with mem := s.mem.write a v } :=
  { h with
    memory_wf := Memory.wf_write a v h.memory_wf
    memory_inside := Memory.inside_write v h.memory_inside ha }

/-- R44: completion of a command with one of its effects. -/
theorem invariant_complete {i : Instr} {s : State} {r : CmdResult} (h : Invariant s) (he : Effect i s r) :
    Invariant (complete s r) where
  memory_wf := he.mem_wf h.memory_wf
  memory_inside := he.mem_inside h.memory_inside
  cmd_latched := h.cmd_latched
  busy_status := nofun
  busy_results := nofun
  busy_footprint := nofun
  idle_footprint _ := rfl
  idle_not_done _ := nofun
  warn_only_ok := he.warn_only_ok
  ovr_only_unencoded := he.ovr_only_unencoded
  error_no_result := he.error_no_result
  util_fraction := he.util_fraction
  reset_idle _ := rfl

/-- The footprint of any state that meets the invariant lies in data memory. -/
theorem invariant_writes_inMem {s : State} (h : Invariant s) :
    ∀ q ∈ s.footprint.writes, InMem s.size q.base q.size := by
  cases hp : s.phase with
  | idle =>
    rw [h.idle_footprint hp]
    exact nofun
  | busy =>
    rw [h.busy_footprint hp]
    exact footprintOf_writes_inMem s.size s.lat

/-- R50: the reset input is asserted. -/
theorem invariant_assertReset {s : State} (h : Invariant s) : Invariant (assertReset s) :=
  invariant_cleared
    { s with mem := scramble s.draws s.mem s.footprint.writes, resetLine := true, draws := s.draws + 1 }
    (wf_scramble s.draws s.footprint.writes h.memory_wf)
    (inside_scramble s.draws h.memory_inside (invariant_writes_inMem h))

/-- R223: the reset input is released. -/
theorem invariant_releaseReset {s : State} (h : Invariant s) : Invariant (releaseReset s) :=
  { h with reset_idle := nofun }

theorem invariant_schedule {s : State} (h : Invariant s) (ts : List Turn) : Invariant { s with turns := ts } :=
  invariant_frame h s.operands s.hazardFault s.host ts s.received s.draws

theorem invariant_hostMoves {s t : State} {op : HostOp} (h : Invariant s) (hm : HostMoves s op t) : Invariant t := by
  obtain ⟨ts, ops, rfl⟩ := hostMoves_takenOff hm
  exact invariant_frame h s.operands s.hazardFault ops ts s.received s.draws

theorem invariant_engineMoves {s t : State} (h : Invariant s) (hm : EngineMoves s t) : Invariant t := by
  obtain ⟨ts, rfl⟩ := engineMoves_takenOff hm
  exact invariant_schedule h ts

/-- The invariant through a host operation: acceptance, rejection, a store, or something it does not speak of. -/
theorem invariant_hostDid {s t : State} {op : HostOp} (h : Invariant s) (hd : HostDid s op t) : Invariant t := by
  cases hd with
  | accepted off width v hr _ => exact invariant_accept h v hr
  | rejected off width v hb => exact invariant_reject h hb
  | operand off width v o => exact invariant_frame h o _ _ _ _ _
  | read => exact invariant_frame h _ _ _ _ _ _
  | hazard a v => exact invariant_frame h _ true _ _ _ _
  | store a v ha => exact invariant_store h a.toNat v ha
  | draw a => exact invariant_frame h _ _ _ _ _ _
  | load a => exact invariant_frame h _ _ _ _ _ _
  | polled => exact invariant_frame h _ _ _ _ _ _
  | pollAgain => exact invariant_frame h _ _ _ _ _ _

/-- The invariant through one step, move by move (R236). -/
theorem invariant_stepDid {s t : State} (h : Invariant s) (hd : StepDid s t) : Invariant t := by
  cases hd with
  | reset rest => exact invariant_assertReset (invariant_schedule h rest)
  | release rest => exact invariant_releaseReset (invariant_schedule h rest)
  | waited rest => exact invariant_schedule h rest
  | host op t₀ _ _ hm hdid => exact invariant_hostDid (invariant_hostMoves h hm) hdid
  | completed i t₀ r _ _ hm _ he => exact invariant_complete (invariant_engineMoves h hm) he
  | illegal t₀ why _ _ hm => exact invariant_complete (invariant_engineMoves h hm) (illegalWord_effect .capacity t₀)

/-! ### HAZARD_FAULT -/

/-- R49: a host operation leaves HAZARD_FAULT, or is a store into the running command's footprint. -/
theorem hostDid_hazardFault {s t : State} {op : HostOp} (h : HostDid s op t) :
    t.hazardFault = s.hazardFault ∨
    (s.phase = .busy ∧ t.host = s.host ∧ ∃ a v, op = .storeByte a v ∧
      (InRanges s.footprint.reads a.toNat ∨ InRanges s.footprint.writes a.toNat)) := by
  cases h with
  | hazard a v hb hin => exact Or.inr ⟨hb, rfl, a, v, rfl, hin⟩
  | accepted | rejected | operand | read | store | draw | load | polled | pollAgain => exact Or.inl rfl

/-- R49: a step leaves HAZARD_FAULT, or is a host store into the running command's footprint while the flag is
clear. -/
theorem stepDid_hazardFault {s t : State} (h : StepDid s t) :
    t.hazardFault = s.hazardFault ∨
    (s.hazardFault = false ∧ s.phase = .busy ∧ ∃ a v, s.host = .storeByte a v :: t.host ∧
      (InRanges s.footprint.reads a.toNat ∨ InRanges s.footprint.writes a.toNat)) := by
  cases h with
  | reset | release | waited => exact Or.inl rfl
  | completed i t₀ r _ _ hm =>
    obtain ⟨ts, rfl⟩ := engineMoves_takenOff hm
    exact Or.inl rfl
  | illegal t₀ why _ _ hm =>
    obtain ⟨ts, rfl⟩ := engineMoves_takenOff hm
    exact Or.inl rfl
  | host op t₀ _ hz hm hdid =>
    have hhost := hm.1
    obtain ⟨ts, ops, rfl⟩ := hostMoves_takenOff hm
    rcases hostDid_hazardFault hdid with hsame | ⟨hb, hleft, a, v, rfl, hin⟩
    · exact Or.inl hsame
    · exact Or.inr ⟨hz, hb, a, v, by rw [hleft]; exact hhost, hin⟩

end Sys2Proof.Machine

open Sys2Proof Sys2Proof.Machine Sys2Proof.Safety

/-- Settles O29, by the cases of a step (R236): every kind of move keeps the invariant. -/
theorem everyStepKeepsInvariant : Obligations.EveryStepKeepsInvariant := by
  unfold Obligations.EveryStepKeepsInvariant
  intro s t h hstep
  exact invariant_stepDid h (step_cases hstep)

/-- Settles O30: every register is 0, the phase IDLE and memory empty. -/
theorem resetMeetsInvariant : Obligations.ResetMeetsInvariant := by
  unfold Obligations.ResetMeetsInvariant
  exact ⟨invariant_resetWith Config.memSizeAtReset, invariant_resetWith⟩

/-- Settles O17: a step leaves the flag, or sets it by a host store into the footprint. -/
theorem hazardFaultSticky : Obligations.HazardFaultSticky := by
  unfold Obligations.HazardFaultSticky
  intro s t hstep
  rcases stepDid_hazardFault (step_cases hstep) with hsame | ⟨hclear, hset⟩
  · exact ⟨hsame.trans, fun hclear hset => Bool.noConfusion (hclear.symm.trans (hsame.symm.trans hset))⟩
  · exact ⟨fun hraised => Bool.noConfusion (hclear.symm.trans hraised), fun _ _ => hset⟩

/-- Settles O14, by the hazard branch of a host store. -/
theorem hostStoreInFootprintIsHazard : Obligations.HostStoreInFootprintIsHazard := by
  unfold Obligations.HostStoreInFootprintIsHazard
  intro s t a v ha hz hb hin hm
  rw [step_hostMoves hm hz]
  obtain ⟨ts, ops, rfl⟩ := hostMoves_takenOff hm
  exact (if_neg (Nat.not_le.2 ha)).trans (if_pos ⟨hb, hin⟩)

/-- Settles O32: the step is the assertion of reset, and its scramble reaches the footprint's WS. -/
theorem resetFromAnyState : Obligations.ResetFromAnyState := by
  unfold Obligations.ResetFromAnyState
  intro s rest hturns
  have hstep : step s = .next (assertReset { s with turns := rest }) := by
    rw [step, takeTurn, hturns]
  refine ⟨_, hstep, fun r => ?_, rfl, rfl, rfl, rfl, rfl, rfl, rfl, rfl,
    read_scramble s.draws s.mem s.footprint.writes⟩
  cases r <;> rfl

end

section
/-! The host's accesses to data memory, forwards (spec/20_memory.md R60, R63, R84), and the two range tests of every
command, address by address (R69, R70). -/

namespace Sys2Proof.Machine

open Sys2Proof.Safety

/-! ### Host accesses -/

/-- R60: no store reaches an address that data memory does not hold. -/
theorem hostStore_outside {s : State} {a : Word} (v : Byte) (h : s.size ≤ a.toNat) :
    hostStore s a v = .fault .outsideDataMemory := if_pos h

theorem hostLoad_outside {s : State} {a : Word} (h : s.size ≤ a.toNat) :
    hostLoad s a = .fault .outsideDataMemory := if_pos h

/-- R84: a store that is no hazard takes effect. -/
theorem hostStore_takesEffect {s : State} {a : Word} (v : Byte) (ha : a.toNat < s.size)
    (h : ¬ (s.phase = .busy ∧ (InRanges s.footprint.reads a.toNat ∨ InRanges s.footprint.writes a.toNat))) :
    hostStore s a v = .next { s with mem := s.mem.write a.toNat v } :=
  (if_neg (Nat.not_le.2 ha)).trans (if_neg h)

/-- R63, R84: a load that is not in WS of a BUSY command returns the byte in memory. -/
theorem hostLoad_returnsByte {s : State} {a : Word} (ha : a.toNat < s.size)
    (h : ¬ (s.phase = .busy ∧ InRanges s.footprint.writes a.toNat)) :
    hostLoad s a = .next (receive s (.byte a (s.mem.read a.toNat))) :=
  (if_neg (Nat.not_le.2 ha)).trans (if_neg h)

/-! ### The range tests -/

/-- R69. -/
theorem inMem_iff (size a n : Nat) : InMem size a n ↔ ∀ x, a ≤ x → x < a + n → x < size := by
  constructor
  · rintro hin x hlo hhi
    omega
  · intro hall
    rcases Nat.eq_zero_or_pos n with hzero | hpos
    · exact Or.inl hzero
    · have hlast := hall (a + n - 1) (by omega) (by omega)
      exact Or.inr (by omega)

/-- R70: two ranges that overlap share the greater of their first addresses. -/
theorem overlaps_iff (a n b m : Nat) :
    Overlaps a n b m ↔ ∃ x, (a ≤ x ∧ x < a + n) ∧ (b ≤ x ∧ x < b + m) := by
  constructor
  · rintro ⟨hn, hm, hab, hba⟩
    exact ⟨max a b, by omega, by omega⟩
  · rintro ⟨x, ⟨hax, hxa⟩, hbx, hxb⟩
    exact ⟨by omega, by omega, by omega, by omega⟩

end Sys2Proof.Machine

open Sys2Proof Sys2Proof.Machine Sys2Proof.Safety

/-- Settles O13: neither access meets the hazard's branch. -/
theorem hostMemoryOutsideFootprint : Obligations.HostMemoryOutsideFootprint := by
  unfold Obligations.HostMemoryOutsideFootprint
  intro s t a ha hz _ hout
  have hfree : ¬ (s.phase = .busy ∧
      (InRanges s.footprint.reads a.toNat ∨ InRanges s.footprint.writes a.toNat)) := by
    rintro ⟨hb, hin⟩
    rcases hout with hi | ⟨hnr, hnw⟩
    · exact Phase.noConfusion (hi.symm.trans hb)
    · exact hin.elim hnr hnw
  refine ⟨fun v hm => ?_, fun hm => ?_⟩
  · rw [step_hostMoves hm hz]
    obtain ⟨ts, ops, rfl⟩ := hostMoves_takenOff hm
    exact ⟨_, hostStore_takesEffect v ha hfree, rfl, fun b => Memory.read_write s.mem a.toNat b v⟩
  · rw [step_hostMoves hm hz]
    obtain ⟨ts, ops, rfl⟩ := hostMoves_takenOff hm
    exact hostLoad_returnsByte ha fun ⟨hb, hw⟩ => hfree ⟨hb, Or.inr hw⟩

/-- Settles O16, by the first test of either access. -/
theorem hostAccessOutsideMemoryFaults : Obligations.HostAccessOutsideMemoryFaults := by
  unfold Obligations.HostAccessOutsideMemoryFaults
  intro s t a v op hop hm hz hsize
  rw [step_hostMoves hm hz]
  obtain ⟨ts, ops, rfl⟩ := hostMoves_takenOff hm
  rcases hop with rfl | rfl
  · exact hostStore_outside v hsize
  · exact hostLoad_outside hsize

end

section
/-! What a command makes of the state when it ends (spec/10_state.md R44), the errors of ENCODE_FRAME in both forms
(spec/40_frame_codec.md R126, spec/60_exceptions.md R201), and the packed form of DECODE_FRAME (R124, R127). -/

namespace Sys2Proof.Machine

open Sys2Proof.Safety

/-! ### How a command ends -/

/-- R95 `Execute(LAT, mem)`: what the command answers, before the completion step. -/
def execute (i : Instr) (size : Nat) (o : Operands) (mem : Memory) : CmdResult :=
  match i with
  | .capacity => capacityCmd o mem
  | .encodeFrame p => encodeFrameCmd p size o mem
  | .decodeFrame p u => decodeFrameCmd p u size o mem
  | .embed => embedCmd size o mem
  | .extract u => extractCmd u size o mem

/-- R44: the meaning of a command is what it answers, then completion. -/
theorem exec_eq_complete (i : Instr) (s : State) :
    exec i s = .next (complete s (execute i s.size s.lat.operands s.mem)) := by
  cases i <;> rfl

/-- R193 with R44: a command that raises. -/
theorem exec_of_raise {i : Instr} {s : State} {r : Raise}
    (h : execute i s.size s.lat.operands s.mem = raise s.mem r) :
    exec i s = .next (endsInError s r.err r.ovr r.regs) := by
  rw [exec_eq_complete, h]
  rfl

/-- R11 `complete(...)` with R44: a command that succeeds. -/
theorem exec_of_finish {i : Instr} {s : State} {mem : Memory} {warn : Bool} {regs : Results}
    (h : execute i s.size s.lat.operands s.mem = finish mem warn regs) :
    exec i s = .next (endsInSuccess s mem warn regs) := by
  rw [exec_eq_complete, h]
  rfl

/-! ### ENCODE_FRAME's errors, in the order of R201 -/

section
variable {p : Bool} {size : Nat} {o : Operands} (mem : Memory)

theorem encodeFrameCmd_tooLarge (hlen : 2 ^ 32 ≤ o.msgLen.toNat) :
    encodeFrameCmd p size o mem = raise mem { err := .messageTooLarge } := if_pos hlen

theorem encodeFrameCmd_range (hlen : o.msgLen.toNat < 2 ^ 32)
    (hin : ¬ (InMem size o.msgAddr.toNat o.msgLen.toNat ∧
      InMem size o.dstAddr.toNat (streamLength p o.msgLen.toNat))) :
    encodeFrameCmd p size o mem = raise mem { err := .range } := by
  unfold encodeFrameCmd
  dsimp only
  rw [if_neg (Nat.not_le.2 hlen)]
  by_cases hmsg : InMem size o.msgAddr.toNat o.msgLen.toNat
  · rw [if_neg (not_not.2 hmsg), if_pos fun hdst => hin ⟨hmsg, hdst⟩]
  · rw [if_pos hmsg]

theorem encodeFrameCmd_overlap (hlen : o.msgLen.toNat < 2 ^ 32)
    (hmsg : InMem size o.msgAddr.toNat o.msgLen.toNat)
    (hdst : InMem size o.dstAddr.toNat (streamLength p o.msgLen.toNat))
    (hover : Overlaps o.dstAddr.toNat (streamLength p o.msgLen.toNat) o.msgAddr.toNat o.msgLen.toNat) :
    encodeFrameCmd p size o mem = raise mem { err := .overlap } := by
  unfold encodeFrameCmd
  dsimp only
  rw [if_neg (Nat.not_le.2 hlen), if_neg (not_not.2 hmsg), if_neg (not_not.2 hdst), if_pos hover]

end

/-! ### A packed frame in memory -/

theorem Memory.readBytes_add (m : Memory) (a n k : Nat) :
    m.readBytes a (n + k) = m.readBytes a n ++ m.readBytes (a + n) k := by
  induction n generalizing a with
  | zero => rw [Nat.zero_add]; rfl
  | succ n ih =>
    rw [Nat.succ_add, Memory.readBytes, Memory.readBytes, ih, List.cons_append, Nat.add_right_comm, Nat.add_assoc]

theorem regroup_expand (s : Bytes) : regroup (expand s) = s := by
  have h := regroup_expand_append s []
  rwa [List.append_nil, regroup_of_short (t := []) (by simp), List.append_nil] at h

/-- R118 on packed bytes: a header `h` that declares the length of `m`, then `m`, then anything. -/
theorem decodeFrame_expand {h m : Bytes} (rest : Bytes) {cap : Nat} (h4 : h.length = 4)
    (hdecl : headerValue (expand h) = m.length) (hcap : m.length ≤ cap) :
    decodeFrame (expand (h ++ (m ++ rest))) cap = .ok (m, m.length) := by
  have hhead : (expand h).length = 32 := by rw [length_expand, h4]
  have hbody : (expand m).length = 8 * m.length := length_expand m
  have hheader : (expand (h ++ (m ++ rest))).take 32 = expand h := by
    rw [expand_append, List.take_left' hhead]
  have hpayload : ((expand (h ++ (m ++ rest))).drop 32).take (8 * m.length) = expand m := by
    rw [expand_append, List.drop_left' hhead, expand_append, List.take_left' hbody]
  have hlength : 32 + 8 * m.length ≤ (expand (h ++ (m ++ rest))).length := by
    simp only [length_expand, List.length_append, h4]
    omega
  unfold decodeFrame
  rw [if_neg (by omega)]
  dsimp only
  rw [hheader, hdecl, if_neg (by omega), if_neg (by omega), hpayload, regroup_expand]

/-- R65: the big-endian value of the four bytes from `a` on. -/
theorem headerValue_expand_readBytes (mem : Memory) (a : Nat) : headerValue (expand (mem.readBytes a 4))
    = (mem.read a).toNat * 2 ^ 24 + (mem.read (a + 1)).toNat * 2 ^ 16 + (mem.read (a + 2)).toNat * 2 ^ 8
      + (mem.read (a + 3)).toNat :=
  headerValue_expand_four _ _ _ _

/-- R127 from the frame on: what a stream that decodes to `m` makes of memory. -/
theorem deliverPayload_ok {u : Bool} {size s n d : Nat} {t : Bits} {cap len : Nat} {m : Bytes} (mem : Memory)
    (hdec : decodeFrame t cap = .ok (m, len)) (hin : InMem size d len) (hapart : ¬ Overlaps d len s n) :
    deliverPayload u size s n d t cap mem = finish (mem.writeBytes d m) (utf8Warning u m)
      { result := BitVec.ofNat 64 len, declLen := BitVec.ofNat 64 len } := by
  unfold deliverPayload
  rw [hdec]
  dsimp only
  rw [if_neg (not_not.2 hin), if_neg hapart]

theorem decodeFrameCmd_of_inMem {p u : Bool} {size : Nat} {o : Operands} (mem : Memory)
    (hin : InMem size o.srcAddr.toNat o.srcLen.toNat) :
    decodeFrameCmd p u size o mem = deliverPayload u size o.srcAddr.toNat o.srcLen.toNat o.dstAddr.toNat
      (loadStream p (mem.readBytes o.srcAddr.toNat o.srcLen.toNat)) o.cap.toNat mem := if_neg (not_not.2 hin)

end Sys2Proof.Machine

open Sys2Proof Sys2Proof.Machine Sys2Proof.Safety

/-- Settles O44: the range tests address by address, and each error by the tests before it. -/
theorem encodeFrameErrors : Obligations.EncodeFrameErrors := by
  unfold Obligations.EncodeFrameErrors
  refine ⟨inMem_iff, overlaps_iff, fun p s => ⟨fun hlen => ?_, fun hlen hin => ?_, fun hlen hmsg hdst hover => ?_⟩⟩
  · exact exec_of_raise (i := .encodeFrame p) (encodeFrameCmd_tooLarge s.mem hlen)
  · exact exec_of_raise (i := .encodeFrame p) (encodeFrameCmd_range s.mem hlen hin)
  · exact exec_of_raise (i := .encodeFrame p) (encodeFrameCmd_overlap s.mem hlen hmsg hdst hover)

/-- Settles O45: the source bytes are header, payload and rest, and the stream decodes to the payload. -/
theorem decodePackedSucceeds : Obligations.DecodePackedSucceeds := by
  unfold Obligations.DecodePackedSucceeds
  intro u s src n d len m hsrc hcap hfits hdst hapart
  have hm : m.length = len := Memory.length_readBytes s.mem (src + 4) len
  have hbytes : s.mem.readBytes src n
      = s.mem.readBytes src 4 ++ (m ++ s.mem.readBytes (src + 4 + len) (n - 4 - len)) := by
    rw [← Memory.readBytes_add, ← Memory.readBytes_add]
    congr 1
    omega
  have hdec : decodeFrame (loadStream false (s.mem.readBytes src n)) s.lat.operands.cap.toNat = .ok (m, len) := by
    rw [← hm, hbytes]
    exact decodeFrame_expand _ (Memory.length_readBytes _ _ _)
      ((headerValue_expand_readBytes s.mem src).trans hm.symm) (hm.trans_le hcap)
  have hdeliver := deliverPayload_ok (u := u) s.mem hdec hdst hapart
  exact exec_of_finish (i := .decodeFrame false u) ((decodeFrameCmd_of_inMem s.mem hsrc).trans hdeliver)

end

section
/-! The footprint (spec/20_memory.md R75): which addresses RS and WS hold for each command, that a command writes
only in WS, and that what it does depends on no byte outside RS (R83, R130). -/

namespace Sys2Proof.Machine

/-! ### RS and WS, address by address -/

theorem not_inRanges_nil (a : Nat) : ¬ InRanges [] a := by
  rintro ⟨r, hr, -⟩
  exact List.not_mem_nil hr

theorem inRanges_cons {r : AddrRange} {rs : List AddrRange} {a : Nat} :
    InRanges (r :: rs) a ↔ InRanges [r] a ∨ InRanges rs a := by
  simp only [InRanges, List.mem_cons, List.not_mem_nil, or_false, or_and_right, exists_or]

/-- RS or WS of a footprint that is empty when `c` holds. -/
theorem inRanges_ite {c : Prop} [Decidable c] {f : Footprint} {part : Footprint → List AddrRange} {a : Nat}
    (h : part {} = []) : InRanges (part (if c then {} else f)) a ↔ ¬ c ∧ InRanges (part f) a := by
  by_cases hc : c
  · rw [if_pos hc, h]
    exact iff_of_false (not_inRanges_nil a) fun hn => hn.1 hc
  · rw [if_neg hc]
    exact (and_iff_right hc).symm

section
variable {size : Nat} {lat : Latched}

theorem footprintOf_illegal {why : IllegalWord} (hd : decode lat.cmd = .illegal why) : footprintOf size lat = {} := by
  simp only [footprintOf, hd]

theorem footprintOf_capacity (hd : decode lat.cmd = .legal .capacity) : footprintOf size lat = {} := by
  simp only [footprintOf, hd]

theorem reads_encodeFrame {p : Bool} (hd : decode lat.cmd = .legal (.encodeFrame p)) (a : Nat) :
    InRanges (footprintOf size lat).reads a ↔ lat.operands.msgLen.toNat < 2 ^ 32 ∧
      lat.operands.msgAddr.toNat ≤ a ∧ a < lat.operands.msgAddr.toNat + lat.operands.msgLen.toNat ∧ a < size := by
  simp only [footprintOf, hd]
  rw [inRanges_ite rfl, inRanges_clipRange, Nat.not_le]

theorem writes_encodeFrame {p : Bool} (hd : decode lat.cmd = .legal (.encodeFrame p)) (a : Nat) :
    InRanges (footprintOf size lat).writes a ↔ lat.operands.msgLen.toNat < 2 ^ 32 ∧
      lat.operands.dstAddr.toNat ≤ a ∧
      a < lat.operands.dstAddr.toNat + streamLength p lat.operands.msgLen.toNat ∧ a < size := by
  simp only [footprintOf, hd]
  rw [inRanges_ite rfl, inRanges_clipRange, Nat.not_le]

theorem reads_decodeFrame {p u : Bool} (hd : decode lat.cmd = .legal (.decodeFrame p u)) (a : Nat) :
    InRanges (footprintOf size lat).reads a ↔
      lat.operands.srcAddr.toNat ≤ a ∧ a < lat.operands.srcAddr.toNat + lat.operands.srcLen.toNat ∧ a < size := by
  simp only [footprintOf, hd]
  exact inRanges_clipRange

theorem writes_decodeFrame {p u : Bool} (hd : decode lat.cmd = .legal (.decodeFrame p u)) (a : Nat) :
    InRanges (footprintOf size lat).writes a ↔ lat.operands.dstAddr.toNat ≤ a ∧
      a < lat.operands.dstAddr.toNat + min lat.operands.cap.toNat (2 ^ 32 - 1) ∧ a < size := by
  simp only [footprintOf, hd]
  exact inRanges_clipRange

theorem embed_fits_iff {n ml : Nat} : ¬ (2 ^ 32 ≤ ml ∨ n / 8 < 4 + ml) ↔ ml < 2 ^ 32 ∧ 4 + ml ≤ n / 8 := by
  omega

theorem reads_embed (hd : decode lat.cmd = .legal .embed) (a : Nat) :
    InRanges (footprintOf size lat).reads a ↔ lat.operands.msgLen.toNat < 2 ^ 32 ∧
      4 + lat.operands.msgLen.toNat ≤ lat.operands.srcLen.toNat / 8 ∧
      ((lat.operands.srcAddr.toNat ≤ a ∧ a < lat.operands.srcAddr.toNat + lat.operands.srcLen.toNat ∧ a < size) ∨
        lat.operands.msgAddr.toNat ≤ a ∧ a < lat.operands.msgAddr.toNat + lat.operands.msgLen.toNat ∧ a < size) := by
  simp only [footprintOf, hd]
  rw [inRanges_ite rfl, embed_fits_iff, inRanges_cons, inRanges_clipRange, inRanges_clipRange, and_assoc]

theorem writes_embed (hd : decode lat.cmd = .legal .embed) (a : Nat) :
    InRanges (footprintOf size lat).writes a ↔ lat.operands.msgLen.toNat < 2 ^ 32 ∧
      4 + lat.operands.msgLen.toNat ≤ lat.operands.srcLen.toNat / 8 ∧ lat.operands.dstAddr.toNat ≤ a ∧
      a < lat.operands.dstAddr.toNat + embedLength lat.operands.dstAddr.toNat lat.operands.srcAddr.toNat
        lat.operands.srcLen.toNat lat.operands.msgLen.toNat ∧ a < size := by
  simp only [footprintOf, hd]
  rw [inRanges_ite rfl, embed_fits_iff, inRanges_clipRange, and_assoc]

theorem reads_extract {u : Bool} (hd : decode lat.cmd = .legal (.extract u)) (a : Nat) :
    InRanges (footprintOf size lat).reads a ↔
      lat.operands.srcAddr.toNat ≤ a ∧ a < lat.operands.srcAddr.toNat + lat.operands.srcLen.toNat ∧ a < size := by
  simp only [footprintOf, hd]
  exact inRanges_clipRange

theorem writes_extract {u : Bool} (hd : decode lat.cmd = .legal (.extract u)) (a : Nat) :
    InRanges (footprintOf size lat).writes a ↔ lat.operands.dstAddr.toNat ≤ a ∧
      a < lat.operands.dstAddr.toNat + lat.operands.srcLen.toNat / 8 ∧ a < size := by
  simp only [footprintOf, hd]
  exact inRanges_clipRange

end

/-- R83: an address outside WS reads as before, whichever way the command ends. -/
theorem Effect.read_outside_writes {i : Instr} {s : State} {r : CmdResult} (h : Effect i s r)
    (hd : decode s.lat.cmd = .legal i) {a : Nat} (ha : ¬ InRanges (footprintOf s.size s.lat).writes a) :
    r.mem.read a = s.mem.read a := by
  cases h with
  | error => rfl
  | success _ _ _ _ _ _ hfoot =>
    exact Memory.read_writeBytes_outside s.mem fun ⟨hlo, hhi⟩ => ha (hfoot hd a hlo hhi)

/-! ### What a command depends on -/

/-- What a command makes of the memories `mem` and `mem'` is the same: one error, or one sequence of bytes written at
one address. -/
inductive SameEnd (mem mem' : Memory) : CmdResult → CmdResult → Prop
  | raised (r : Raise) : SameEnd mem mem' (raise mem r) (raise mem' r)
  | finished (d : Nat) (bytes : Bytes) (warn : Bool) (regs : Results) :
      SameEnd mem mem' (finish (mem.writeBytes d bytes) warn regs) (finish (mem'.writeBytes d bytes) warn regs)

/-- A range that passes in_mem reads the same in both memories. -/
def SameBytes (size : Nat) (mem mem' : Memory) (a n : Nat) : Prop :=
  InMem size a n → mem.readBytes a n = mem'.readBytes a n

section
variable {mem mem' : Memory}

/-- R75 cuts a range at MEM_SIZE; one that passes in_mem is not cut. -/
theorem sameBytes_of_read {size a n : Nat} (h : ∀ b, a ≤ b ∧ b < a + n ∧ b < size → mem.read b = mem'.read b) :
    SameBytes size mem mem' a n :=
  fun hin => Memory.readBytes_congr fun b hlo hhi => h b ⟨hlo, hhi, (inMem_iff size a n).1 hin b hlo hhi⟩

/-- A test of a command that reads no memory goes the same way in both. -/
theorem SameEnd.ite {c : Prop} [Decidable c] {r₁ r₁' r₂ r₂' : CmdResult} (hpos : c → SameEnd mem mem' r₁ r₁')
    (hneg : ¬ c → SameEnd mem mem' r₂ r₂') :
    SameEnd mem mem' (if c then r₁ else r₂) (if c then r₁' else r₂') := by
  by_cases hc : c
  · rw [if_pos hc, if_pos hc]
    exact hpos hc
  · rw [if_neg hc, if_neg hc]
    exact hneg hc

theorem SameEnd.read {r r' : CmdResult} (h : SameEnd mem mem' r r') (a : Nat) :
    (r.mem.read a = mem.read a ∧ r'.mem.read a = mem'.read a) ∨ r.mem.read a = r'.mem.read a := by
  cases h with
  | raised r => exact Or.inl ⟨rfl, rfl⟩
  | finished d bytes =>
    by_cases ha : d ≤ a ∧ a < d + bytes.length
    · exact Or.inr (by simp only [finish, Memory.read_writeBytes, if_pos ha])
    · exact Or.inl ⟨Memory.read_writeBytes_outside mem ha, Memory.read_writeBytes_outside mem' ha⟩

theorem SameEnd.outcome {r r' : CmdResult} (h : SameEnd mem mem' r r') :
    r.regs = r'.regs ∧ r.err = r'.err ∧ r.warnUtf8 = r'.warnUtf8 ∧ r.ovr = r'.ovr := by
  cases h with
  | raised => exact ⟨rfl, rfl, rfl, rfl⟩
  | finished => exact ⟨rfl, rfl, rfl, rfl⟩

theorem deliverPayload_sameEnd (u : Bool) (size s n d : Nat) (t : Bits) (cap : Nat) :
    SameEnd mem mem' (deliverPayload u size s n d t cap mem) (deliverPayload u size s n d t cap mem') := by
  unfold deliverPayload
  cases decodeFrame t cap with
  | error r => exact .raised r
  | ok payload => exact .ite (fun _ => .raised _) fun _ => .ite (fun _ => .raised _) fun _ => .finished _ _ _ _

variable (size : Nat) (o : Operands)

theorem encodeFrameCmd_sameEnd (p : Bool) (hmsg : o.msgLen.toNat < 2 ^ 32 →
      SameBytes size mem mem' o.msgAddr.toNat o.msgLen.toNat) :
    SameEnd mem mem' (encodeFrameCmd p size o mem) (encodeFrameCmd p size o mem') := by
  refine .ite (fun _ => .raised _) fun hlen => .ite (fun _ => .raised _) fun hin =>
    .ite (fun _ => .raised _) fun _ => .ite (fun _ => .raised _) fun _ => ?_
  rw [hmsg (Nat.not_le.1 hlen) (not_not.1 hin)]
  cases encodeFrame (mem'.readBytes o.msgAddr.toNat o.msgLen.toNat) with
  | error r => exact .raised r
  | ok t => exact .finished _ _ _ _

theorem decodeFrameCmd_sameEnd (p u : Bool) (hsrc : SameBytes size mem mem' o.srcAddr.toNat o.srcLen.toNat) :
    SameEnd mem mem' (decodeFrameCmd p u size o mem) (decodeFrameCmd p u size o mem') := by
  refine .ite (fun _ => .raised _) fun hin => ?_
  rw [hsrc (not_not.1 hin)]
  exact deliverPayload_sameEnd u size _ _ _ _ _

theorem embedCmd_sameEnd
    (hbuf : o.msgLen.toNat < 2 ^ 32 → 4 + o.msgLen.toNat ≤ o.srcLen.toNat / 8 →
      SameBytes size mem mem' o.srcAddr.toNat o.srcLen.toNat)
    (hmsg : o.msgLen.toNat < 2 ^ 32 → 4 + o.msgLen.toNat ≤ o.srcLen.toNat / 8 →
      SameBytes size mem mem' o.msgAddr.toNat o.msgLen.toNat) :
    SameEnd mem mem' (embedCmd size o mem) (embedCmd size o mem') := by
  refine .ite (fun _ => .raised _) fun hlen => .ite (fun _ => .raised _) fun hfits =>
    .ite (fun _ => .raised _) fun hsrc => .ite (fun _ => .raised _) fun hin => .ite (fun _ => .raised _) fun _ =>
    .ite (fun _ => .raised _) fun _ => .ite (fun _ => .raised _) fun _ => ?_
  rw [hbuf (Nat.not_le.1 hlen) (Nat.not_lt.1 hfits) (not_not.1 hsrc),
    hmsg (Nat.not_le.1 hlen) (Nat.not_lt.1 hfits) (not_not.1 hin)]
  cases embedPixels (mem'.readBytes o.srcAddr.toNat o.srcLen.toNat)
      (mem'.readBytes o.msgAddr.toNat o.msgLen.toNat) with
  | error r => exact .raised r
  | ok out => exact .finished _ _ _ _

theorem extractCmd_sameEnd (u : Bool) (hsrc : SameBytes size mem mem' o.srcAddr.toNat o.srcLen.toNat) :
    SameEnd mem mem' (extractCmd u size o mem) (extractCmd u size o mem') := by
  refine .ite (fun _ => .raised _) fun hin => ?_
  rw [hsrc (not_not.1 hin)]
  exact deliverPayload_sameEnd u size _ _ _ _ _

/-- R83, R130: two memories that agree on RS are the same to the command. -/
theorem execute_sameEnd {i : Instr} (lat : Latched) (hd : decode lat.cmd = .legal i)
    (h : ∀ a, InRanges (footprintOf size lat).reads a → mem.read a = mem'.read a) :
    SameEnd mem mem' (execute i size lat.operands mem) (execute i size lat.operands mem') := by
  cases i with
  | capacity => exact .finished 0 [] false _
  | encodeFrame p =>
    exact encodeFrameCmd_sameEnd _ _ p fun hlen => sameBytes_of_read fun b hb =>
      h b ((reads_encodeFrame hd b).2 ⟨hlen, hb⟩)
  | decodeFrame p u =>
    exact decodeFrameCmd_sameEnd _ _ p u (sameBytes_of_read fun b hb => h b ((reads_decodeFrame hd b).2 hb))
  | embed =>
    refine embedCmd_sameEnd _ _ (fun hlen hfits => sameBytes_of_read fun b hb => ?_)
      (fun hlen hfits => sameBytes_of_read fun b hb => ?_)
    · exact h b ((reads_embed hd b).2 ⟨hlen, hfits, Or.inl hb⟩)
    · exact h b ((reads_embed hd b).2 ⟨hlen, hfits, Or.inr hb⟩)
  | extract u =>
    exact extractCmd_sameEnd _ _ u (sameBytes_of_read fun b hb => h b ((reads_extract hd b).2 hb))

end

end Sys2Proof.Machine

open Sys2Proof Sys2Proof.Machine Sys2Proof.Safety

/-- Settles O26: R75 row by row, and the footprint clause of a command's effect. -/
theorem writesStayInFootprint : Obligations.WritesStayInFootprint := by
  unfold Obligations.WritesStayInFootprint
  refine ⟨fun size lat a => ?_, fun i s t hd h a ha => ?_⟩
  · intro ml n msg src d inside rs ws
    have hempty : footprintOf size lat = {} → ¬ rs ∧ ¬ ws := fun he => by
      simp only [rs, ws, he]
      exact ⟨not_inRanges_nil a, not_inRanges_nil a⟩
    split
    · next hd => exact hempty (footprintOf_illegal hd)
    · next hd => exact hempty (footprintOf_capacity hd)
    · next hd => exact ⟨reads_encodeFrame hd a, writes_encodeFrame hd a⟩
    · next hd => exact ⟨reads_decodeFrame hd a, writes_decodeFrame hd a⟩
    · next hd => exact ⟨reads_embed hd a, writes_embed hd a⟩
    · next hd => exact ⟨reads_extract hd a, writes_extract hd a⟩
  · obtain ⟨r, he, heffect⟩ := exec_effect i s
    cases he.symm.trans h
    exact heffect.read_outside_writes hd ha

/-- Settles O27: the command ends the same way in both memories, on the common operands. -/
theorem readSetDeterminesOutcome : Obligations.ReadSetDeterminesOutcome := by
  unfold Obligations.ReadSetDeterminesOutcome
  intro i s s' t t' hlat hsize hd hreads h h'
  have hsame := execute_sameEnd s.size s.lat hd hreads
  cases (exec_eq_complete i s).symm.trans h
  cases (exec_eq_complete i s').symm.trans h'
  rw [State.size, State.size, ← hlat, ← hsize]
  obtain ⟨hregs, herr, hwarn, hovr⟩ := hsame.outcome
  exact ⟨hregs, herr, hwarn, hovr, hsame.read⟩

end

section
/-! Encoding (spec/30_encoding.md R91 to R99): each row of the opcode table matches exactly the words `encode` gives
the row's commands, so that decoding inverts encoding and the legal words are those of the ten commands. -/

namespace Sys2Proof

/-! ### The rows of the opcode table (R95) -/

/-- A word that a row matches is the row's pattern, with bits of its own only where the mask is 0. -/
theorem and_mask_eq_iff {w m p : Word} (hp : p &&& m = p) : w &&& m = p ↔ w = p ||| w &&& ~~~m := by
  constructor
  · rintro rfl
    rw [← BitVec.and_or_distrib_left, BitVec.or_not_self, BitVec.and_allOnes]
  · intro h
    rw [h, BitVec.and_or_distrib_right, BitVec.and_assoc, BitVec.not_and_self]
    simpa using hp

/-- Field P of a word, in its place. -/
theorem and_pMask (w : Word) : w &&& 0x10#64 = pBit (w.getLsbD 4) :=
  BitVec.and_twoPow w 4

/-- Field U of a word, in its place. -/
theorem and_uMask (w : Word) : w &&& 0x20#64 = uBit (w.getLsbD 5) :=
  BitVec.and_twoPow w 5

theorem capacityRow_iff (w : Word) : w &&& 0xFFFFFFFFFFFFFFFF#64 = 0x01#64 ↔ w = encode .capacity := by
  rw [and_mask_eq_iff (by decide)]
  simp [encode]

theorem encodeFrameRow_iff (w : Word) :
    w &&& 0xFFFFFFFFFFFFFFEF#64 = 0x02#64 ↔ w = encode (.encodeFrame (w.getLsbD 4)) := by
  rw [and_mask_eq_iff (by decide), encode, ← and_pMask]
  rfl

theorem decodeFrameRow_iff (w : Word) :
    w &&& 0xFFFFFFFFFFFFFFCF#64 = 0x03#64 ↔ w = encode (.decodeFrame (w.getLsbD 4) (w.getLsbD 5)) := by
  rw [and_mask_eq_iff (by decide), encode, ← and_pMask, ← and_uMask, BitVec.or_assoc, ← BitVec.and_or_distrib_left]
  rfl

theorem embedRow_iff (w : Word) : w &&& 0xFFFFFFFFFFFFFFFF#64 = 0x04#64 ↔ w = encode .embed := by
  rw [and_mask_eq_iff (by decide)]
  simp [encode]

theorem extractRow_iff (w : Word) :
    w &&& 0xFFFFFFFFFFFFFFDF#64 = 0x05#64 ↔ w = encode (.extract (w.getLsbD 5)) := by
  rw [and_mask_eq_iff (by decide), encode, ← and_uMask]
  rfl

/-- A row matches no words but its command's; that it matches those is in `Laws.Encoding.Statement`. -/
theorem encode_of_rowMatches {r : OpcodeRow} {w : Word} (hr : r ∈ opcodeTable) (h : rowMatches r w = true) :
    ∃ i, w = encode i := by
  simp only [opcodeTable, List.mem_cons, List.not_mem_nil, or_false] at hr
  rw [rowMatches, beq_iff_eq] at h
  obtain rfl | rfl | rfl | rfl | rfl := hr
  · exact ⟨_, (capacityRow_iff w).1 h⟩
  · exact ⟨_, (encodeFrameRow_iff w).1 h⟩
  · exact ⟨_, (decodeFrameRow_iff w).1 h⟩
  · exact ⟨_, (embedRow_iff w).1 h⟩
  · exact ⟨_, (extractRow_iff w).1 h⟩

/-! ### The ten commands -/

theorem mem_allInstrs (i : Instr) : i ∈ allInstrs := by
  cases i with
  | capacity => decide
  | encodeFrame p => cases p <;> decide
  | decodeFrame p u => cases p <;> cases u <;> decide
  | embed => decide
  | extract u => cases u <;> decide

/-- What holds of each of the ten commands holds of every command. -/
theorem forall_instr {P : Instr → Prop} (h : ∀ i ∈ allInstrs, P i) (i : Instr) : P i :=
  h i (mem_allInstrs i)

/-- The law of each command's word (R91, R92, R95), for every command. -/
theorem encoding_law (i : Instr) : Laws.Encoding.Statement i := by
  cases i with
  | capacity => exact Laws.Encoding.capacity
  | encodeFrame p => exact Laws.Encoding.encodeFrame p
  | decodeFrame p u => exact Laws.Encoding.decodeFrame p u
  | embed => exact Laws.Encoding.embed
  | extract u => exact Laws.Encoding.extract u

/-! ### Decoding and encoding (R91, R92) -/

@[simp] theorem decode_encode : ∀ i, decode (encode i) = .legal i :=
  forall_instr (by decide)

/-- The decoder's dispatch, with each row's test as an equation of words. -/
theorem encode_of_decode {w : Word} {i : Instr} (h : decode w = .legal i) : w = encode i := by
  simp only [decode, capacityRow_iff, encodeFrameRow_iff, decodeFrameRow_iff, embedRow_iff, extractRow_iff] at h
  split_ifs at h <;> cases h <;> assumption

theorem decode_legal_iff {w : Word} : (∃ i, decode w = .legal i) ↔ ∃ i, w = encode i :=
  exists_congr fun _ => ⟨encode_of_decode, fun h => h ▸ decode_encode _⟩

theorem decode_illegal_iff {w : Word} : (∃ why, decode w = .illegal why) ↔ ¬ ∃ i, decode w = .legal i := by
  cases decode w <;> simp

/-- A command's word matches its own row of the table and no other (R95). -/
theorem encode_oneRow (i : Instr) : (opcodeTable.filter (fun r => rowMatches r (encode i))).length = 1 := by
  obtain ⟨-, -, hrow⟩ := encoding_law i
  simpa using congrArg List.length hrow

/-- A word that is no command's matches no row. -/
theorem noRow_of_not_encode {w : Word} (h : ¬ ∃ i, w = encode i) : opcodeTable.filter (fun r => rowMatches r w) = [] :=
  List.filter_eq_nil_iff.2 fun _ hr hm => h (encode_of_rowMatches hr hm)

/-! ### The legal words and the assembler's lines (R95, R99) -/

theorem encode_iff_mem {w : Word} : (∃ i, w = encode i) ↔ w ∈ allInstrs.map encode := by
  simp [mem_allInstrs, eq_comm]

/-- The ten legal words as numbers. -/
theorem encode_iff_toNat {w : Word} :
    (∃ i, w = encode i) ↔ w.toNat ∈ [0x01, 0x02, 0x12, 0x03, 0x13, 0x23, 0x33, 0x04, 0x05, 0x25] := by
  rw [encode_iff_mem, ← List.mem_map_of_injective (f := BitVec.toNat) fun _ _ => BitVec.eq_of_toNat_eq]
  rfl

/-- R99: the assembler finds a command by its spelling, for no two commands are spelled alike. -/
theorem find?_spelling : ∀ i, allInstrs.find? (fun j => spelling j == spelling i) = some i :=
  forall_instr (by decide)

theorem assemble_iff {line : String} {w : Word} :
    assemble line = some w ↔ ∃ i, spelling i = line ∧ encode i = w := by
  rw [assemble, Option.map_eq_some_iff]
  constructor
  · rintro ⟨i, hfind, hw⟩
    exact ⟨i, beq_iff_eq.1 (List.find?_some hfind :), hw⟩
  · rintro ⟨i, rfl, hw⟩
    exact ⟨i, find?_spelling i, hw⟩

end Sys2Proof

open Sys2Proof Sys2Proof.Machine

/-- Settles O1: each test of the decoder is the equation `w = encode i` of its row's command. -/
theorem decodeIffEncode : Obligations.DecodeIffEncode := by
  unfold Obligations.DecodeIffEncode
  exact fun _ _ => ⟨encode_of_decode, fun h => h ▸ decode_encode _⟩

/-- Settles O2: a command's word matches one row, and any other word none. -/
theorem legalWordsMatchOneRow : Obligations.LegalWordsMatchOneRow := by
  unfold Obligations.LegalWordsMatchOneRow
  intro w
  rw [decode_legal_iff]
  by_cases h : ∃ i, w = encode i
  · obtain ⟨i, rfl⟩ := h
    have hone := encode_oneRow i
    exact ⟨hone.le, iff_of_true ⟨i, rfl⟩ hone, encode_iff_mem⟩
  · rw [noRow_of_not_encode h]
    exact ⟨by decide, iff_of_false h (by decide), encode_iff_mem⟩

/-- Settles O3: the number of a legal word is one of ten, and its fields are quotients and remainders of it. -/
theorem illegalWordsByField : Obligations.IllegalWordsByField := by
  unfold Obligations.IllegalWordsByField
  intro w
  have hp : w.getLsbD 4 = true ↔ w.toNat / 16 % 2 = 1 := by
    simp [BitVec.getLsbD, Nat.testBit_eq_decide_div_mod_eq]
  have hu : w.getLsbD 5 = true ↔ w.toNat / 32 % 2 = 1 := by
    simp [BitVec.getLsbD, Nat.testBit_eq_decide_div_mod_eq]
  rw [decode_illegal_iff, decode_legal_iff, encode_iff_toNat, hp, hu]
  simp only [List.mem_cons, List.not_mem_nil, or_false]
  omega

/-- Settles O4, each word by running the decoder on it. -/
theorem wordsDecodeAsWritten : Obligations.WordsDecodeAsWritten := by
  unfold Obligations.WordsDecodeAsWritten
  decide

/-- Settles O5: a line assembles exactly when it is a command's spelling, and R99's list is that of the ten commands. -/
theorem assemblerSpellings : Obligations.AssemblerSpellings := by
  unfold Obligations.AssemblerSpellings
  intro line w
  have hlist : (line, w) ∈ allInstrs.map (fun i => (spelling i, encode i)) ↔
      ∃ i, spelling i = line ∧ encode i = w := by
    simp [mem_allInstrs]
  exact assemble_iff.trans hlist.symm

/-- Settles O19, by the engine's turn at an illegal word. -/
theorem illegalWordCompletes : Obligations.IllegalWordCompletes := by
  unfold Obligations.IllegalWordCompletes
  intro s t why hm hb hz hd
  rw [step_engineMoves hm]
  obtain ⟨ts, rfl⟩ := engineMoves_takenOff hm
  exact engineTurn_illegal hz hb hd

end

section
/-! The frame codec as functions (spec/40_frame_codec.md R111 to R118): the bits of an expansion, regrouping as its
inverse, the value of a header, and what the decoder makes of a stream cut into header, body and rest. -/

namespace Sys2Proof.Machine

/-! ### Expansion and regrouping -/

/-- R112: a byte's bits, most significant first. -/
theorem getElem?_bitsOfByte (b : Byte) {k : Nat} (hk : k ≤ 7) : (bitsOfByte b)[k]? = some (b.getLsbD (7 - k)) := by
  interval_cases k <;> rfl

theorem getElem?_expand {s : Bytes} {j k : Nat} {b : Byte} (hb : s[j]? = some b) (hk : k ≤ 7) :
    (expand s)[8 * j + k]? = some (b.getLsbD (7 - k)) := by
  induction s generalizing j with
  | nil => cases hb
  | cons c s ih =>
    rw [expand_cons]
    cases j with
    | zero =>
      cases hb
      rw [Nat.mul_zero, Nat.zero_add, List.getElem?_append_left (Nat.lt_succ_of_le hk), getElem?_bitsOfByte b hk]
    | succ j =>
      rw [List.getElem?_append_right (by rw [length_bitsOfByte]; omega), length_bitsOfByte, ← ih hb]
      congr 1
      omega

/-- R114: a stream of whole bytes is the expansion of its bytes. -/
theorem expand_regroup {t : Bits} (h : t.length % 8 = 0) : expand (regroup t) = t := by
  induction t using regroup.induct with
  | case1 b7 b6 b5 b4 b3 b2 b1 b0 rest ih =>
    simp only [List.length_cons] at h
    rw [regroup, expand_cons, bitsOfByte_byteOfBits, ih (by omega)]
    rfl
  | case2 t hshort =>
    have hnone : regroup t = [] := by rw [regroup]; exact hshort
    have hlength := length_regroup t
    rw [hnone, List.length_nil] at hlength
    rw [hnone, List.eq_nil_of_length_eq_zero (l := t) (by omega)]
    rfl

/-! ### The header -/

/-- R111 for a sequence of any length: the first bit weighs most. -/
theorem headerValue_eq_sum (h : Bits) : headerValue h =
    ((List.range h.length).map (fun k => (h.getD k false).toNat * 2 ^ (h.length - 1 - k))).sum := by
  induction h with
  | nil => rfl
  | cons b h ih =>
    have hfirst : headerValue [b] = b.toNat := by cases b <;> rfl
    have hrest (k : Nat) : ((b :: h).getD (k + 1) false).toNat * 2 ^ (h.length + 1 - 1 - (k + 1)) =
        (h.getD k false).toNat * 2 ^ (h.length - 1 - k) := by
      rw [List.getD_cons_succ, Nat.add_sub_cancel, Nat.sub_add_eq, Nat.sub_right_comm]
    rw [← List.singleton_append, headerValue_append, hfirst, ih, List.singleton_append, List.length_cons,
      List.range_succ_eq_map, List.map_cons, List.map_map, List.sum_cons]
    simp only [Function.comp_def, Nat.succ_eq_add_one, hrest]
    rfl

/-- R111: reading a header inverts writing it, for every length it can hold. -/
theorem headerValue_expand_be32 {len : Nat} (h : len < 2 ^ 32) : headerValue (expand (be32 len)) = len := by
  rw [be32, headerValue_expand_four]
  simp only [BitVec.toNat_ofNat]
  omega

/-! ### Frames -/

@[simp] theorem length_frame (m : Bytes) : (frame m).length = 4 + m.length := by
  rw [frame, List.length_append, length_be32]

/-- R117: a message whose length does not fit the header. -/
theorem encodeFrame_tooLarge {m : Bytes} (h : 2 ^ 32 ≤ m.length) :
    encodeFrame m = .error { err := .messageTooLarge } := if_pos h

/-- R116: what an encoded frame is. -/
theorem eq_expand_of_encodeFrame {m : Bytes} {t : Bits} (h : encodeFrame m = .ok t) : t = expand (frame m) := by
  by_cases hlen : 2 ^ 32 ≤ m.length
  · cases (encodeFrame_tooLarge hlen).symm.trans h
  · cases (encodeFrame_of_fits (Nat.not_le.1 hlen)).symm.trans h
    rfl

/-! ### The decoder, test by test (R118, R201) -/

section
variable {t : Bits} {cap : Nat}

theorem decodeFrame_short (h : t.length < 32) : decodeFrame t cap = .error (unencoded true 0) := if_pos h

theorem decodeFrame_overCap (h : 32 ≤ t.length) (hcap : cap < headerValue (t.take 32)) :
    decodeFrame t cap = .error (unencoded false (headerValue (t.take 32))) :=
  (if_neg (Nat.not_lt.2 h)).trans (if_pos hcap)

theorem decodeFrame_overrun (h : 32 ≤ t.length) (hcap : headerValue (t.take 32) ≤ cap)
    (hrun : t.length < 32 + 8 * headerValue (t.take 32)) :
    decodeFrame t cap = .error (unencoded true (headerValue (t.take 32))) :=
  (if_neg (Nat.not_lt.2 h)).trans ((if_neg (Nat.not_lt.2 hcap)).trans (if_pos hrun))

theorem decodeFrame_fits (hcap : headerValue (t.take 32) ≤ cap)
    (hrun : 32 + 8 * headerValue (t.take 32) ≤ t.length) : decodeFrame t cap =
      .ok (regroup ((t.drop 32).take (8 * headerValue (t.take 32))), headerValue (t.take 32)) :=
  (if_neg (by omega)).trans ((if_neg (Nat.not_lt.2 hcap)).trans (if_neg (Nat.not_lt.2 hrun)))

end

/-- R118 with R121: a stream of a header `h`, the bits it declares and any `rest` decodes without regard to `rest`. -/
theorem decodeFrame_append {h body : Bits} (rest : Bits) (cap : Nat) (hhead : h.length = 32)
    (hbody : body.length = 8 * headerValue h) : decodeFrame (h ++ (body ++ rest)) cap =
      if cap < headerValue h then .error (unencoded false (headerValue h))
      else .ok (regroup body, headerValue h) := by
  have hheader : (h ++ (body ++ rest)).take 32 = h := List.take_left' hhead
  have hlength : (h ++ (body ++ rest)).length = 32 + (8 * headerValue h + rest.length) := by
    rw [List.length_append, List.length_append, hhead, hbody]
  split
  · next hcap => rw [decodeFrame_overCap (by omega) (by rwa [hheader]), hheader]
  · next hcap =>
    rw [decodeFrame_fits (by rw [hheader]; omega) (by rw [hheader]; omega), hheader, List.drop_left' hhead,
      List.take_left' hbody]

/-- R128: an encoded frame decodes to its message, whatever bits follow it. -/
theorem decodeFrame_expand_frame {m : Bytes} (rest : Bits) {cap : Nat} (hlen : m.length < 2 ^ 32)
    (hcap : m.length ≤ cap) : decodeFrame (expand (frame m) ++ rest) cap = .ok (m, m.length) := by
  have hvalue := headerValue_expand_be32 hlen
  have hbody : (expand m).length = 8 * headerValue (expand (be32 m.length)) := by rw [length_expand, hvalue]
  rw [frame, expand_append, List.append_assoc, decodeFrame_append rest cap rfl hbody, hvalue,
    if_neg (Nat.not_lt.2 hcap), regroup_expand]

/-! ### The pixel plane -/

/-- R155, R156: the plane of a written buffer is the bits written, then what stood there. -/
theorem lsbPlane_writePlane {buf : Bytes} {bits : Bits} (h : bits.length ≤ buf.length) :
    lsbPlane (writePlane buf bits) = bits ++ lsbPlane (buf.drop bits.length) := by
  induction buf generalizing bits with
  | nil =>
    cases List.eq_nil_of_length_eq_zero (Nat.le_zero.1 h)
    rfl
  | cons b buf ih =>
    cases bits with
    | nil => rfl
    | cons bit bits =>
      have hrest := ih (Nat.le_of_succ_le_succ h)
      rw [lsbPlane] at hrest ⊢
      rw [writePlane, List.map_cons, setLsb_bit, hrest]
      rfl

end Sys2Proof.Machine

open Sys2Proof Sys2Proof.Machine Sys2Proof.Safety

/-- Settles O35, byte by byte. -/
theorem expandBits : Obligations.ExpandBits := by
  unfold Obligations.ExpandBits
  exact fun s => ⟨length_expand s, fun _ _ _ hb hk => getElem?_expand hb hk⟩

/-- Settles O36: `regroup` takes eight bits at a time, which are the bits of one byte. -/
theorem regroupExpand : Obligations.RegroupExpand := by
  unfold Obligations.RegroupExpand
  exact ⟨regroup_expand, fun t ht => ⟨expand_regroup ht, length_regroup t⟩⟩

/-- Settles O37: the value of any sequence of bits as a sum, at length 32. -/
theorem headerValue : Obligations.HeaderValue := by
  unfold Obligations.HeaderValue
  refine ⟨fun h hlen => ⟨?_, ?_⟩, fun len => headerValue_expand_be32⟩
  · rw [headerValue_eq_sum, hlen]
  · have hlt := headerValue_lt h
    rw [hlen] at hlt
    omega

/-- Settles O38: a header is four bytes, and a byte expands to eight bits. -/
theorem frameLengths : Obligations.FrameLengths := by
  unfold Obligations.FrameLengths
  refine fun m => ⟨length_frame m, fun t ht => ?_⟩
  rw [eq_expand_of_encodeFrame ht, length_expand]

/-- Settles O39, by the one test of the encoder. -/
theorem messageTooLargeExactly : Obligations.MessageTooLargeExactly := by
  unfold Obligations.MessageTooLargeExactly
  refine fun m => ⟨⟨fun herr => ?_, encodeFrame_tooLarge⟩, encodeFrame_of_fits⟩
  by_contra hlen
  cases (encodeFrame_of_fits (Nat.not_le.1 hlen)).symm.trans herr

/-- Settles O40: the header declares the message's length, and the body is its expansion. -/
theorem frameRoundTrip : Obligations.FrameRoundTrip := by
  unfold Obligations.FrameRoundTrip
  exact fun m rest cap hlen hcap => ⟨_, encodeFrame_of_fits hlen, decodeFrame_expand_frame rest hlen hcap⟩

/-- Settles O41: both streams have the same header and body, and the decoder's answer is in terms of these. -/
theorem trailingBitsIgnored : Obligations.TrailingBitsIgnored := by
  unfold Obligations.TrailingBitsIgnored
  intro t rest cap len hlen
  have hhead : (t.take 32).length = 32 := by rw [List.length_take]; omega
  have hbody : ((t.drop 32).take (8 * len)).length = 8 * len := by
    rw [List.length_take, List.length_drop]
    omega
  have hcut : t = t.take 32 ++ ((t.drop 32).take (8 * len) ++ (t.drop 32).drop (8 * len)) := by
    rw [List.take_append_drop, List.take_append_drop]
  have hsame := decodeFrame_append ((t.drop 32).drop (8 * len)) cap hhead hbody
  rw [← hcut] at hsame
  rw [hsame, List.take_add, List.append_assoc]
  exact decodeFrame_append rest cap hhead hbody

/-- Settles O51: the plane of the embedded buffer is the encoded frame, then bits that the decoder ignores. -/
theorem embedExtractRoundTrip : Obligations.EmbedExtractRoundTrip := by
  unfold Obligations.EmbedExtractRoundTrip
  intro buf m hlen hfits
  have hbits : (expand (frame m)).length ≤ buf.length := by
    rw [length_expand, length_frame]
    omega
  refine ⟨_, embedPixels_of_fits hlen hfits, ?_⟩
  rw [extractPixels, lsbPlane_writePlane hbits, length_writePlane]
  exact decodeFrame_expand_frame _ hlen ((Nat.le_add_left _ 4).trans hfits)

end

section
/-! The UTF-8 check (spec/40_frame_codec.md R122): the scan that takes the one row its first byte allows decides
whether the bytes split into rows of the table. -/

namespace Sys2Proof.Machine

/-! ### One row -/

/-- R122: a sequence matches a row, byte for byte. -/
def Matches (row : List (Nat × Nat)) (q : Bytes) : Prop :=
  List.Forall₂ (fun (col : Nat × Nat) (b : Byte) => col.1 ≤ b.toNat ∧ b.toNat ≤ col.2) row q

theorem inColumn_iff {col : Nat × Nat} {b : Byte} : inColumn col b = true ↔ col.1 ≤ b.toNat ∧ b.toNat ≤ col.2 :=
  decide_eq_true_iff

/-- Stripping a row takes a sequence that matches it off the front. -/
theorem stripRow_eq_some_iff {row : List (Nat × Nat)} {m rest : Bytes} :
    stripRow row m = some rest ↔ ∃ q, Matches row q ∧ q ++ rest = m := by
  induction row generalizing m with
  | nil => simp [stripRow, Matches, eq_comm]
  | cons col row ih =>
    cases m with
    | nil => simp [stripRow, Matches, List.forall₂_cons_left_iff]
    | cons b bs =>
      by_cases hb : inColumn col b = true
      · simp only [stripRow, if_pos hb, ih, Matches, List.forall₂_cons_left_iff]
        constructor
        · rintro ⟨q, hq, rfl⟩
          exact ⟨b :: q, ⟨b, q, inColumn_iff.1 hb, hq, rfl⟩, rfl⟩
        · rintro ⟨_, ⟨c, q, -, hq, rfl⟩, hm⟩
          exact ⟨q, hq, (List.cons.inj hm).2⟩
      · simp only [stripRow, if_neg hb, Matches, List.forall₂_cons_left_iff]
        refine iff_of_false nofun ?_
        rintro ⟨_, ⟨c, q, hc, -, rfl⟩, hm⟩
        cases (List.cons.inj hm).1
        exact hb (inColumn_iff.2 hc)

/-! ### The rows of the table -/

/-- No byte stands in the first column of both rows. -/
def FirstApart (row row' : List (Nat × Nat)) : Prop :=
  ∀ col ∈ row.head?, ∀ col' ∈ row'.head?, col.2 < col'.1 ∨ col'.2 < col.1

theorem utf8Rows_firstApart : ∀ row ∈ utf8Rows, ∀ row' ∈ utf8Rows, row ≠ row' → FirstApart row row' := by
  unfold FirstApart
  decide

theorem utf8Rows_ne_nil : ∀ row ∈ utf8Rows, row ≠ [] := by decide

/-- A row that is stripped has the first byte in its first column. -/
theorem head_of_stripRow {row : List (Nat × Nat)} {b : Byte} {bs rest : Bytes} (hrow : row ∈ utf8Rows)
    (h : stripRow row (b :: bs) = some rest) : ∃ col ∈ row.head?, col.1 ≤ b.toNat ∧ b.toNat ≤ col.2 := by
  obtain ⟨q, hq, hm⟩ := stripRow_eq_some_iff.1 h
  cases hq with
  | nil => exact absurd rfl (utf8Rows_ne_nil [] hrow)
  | cons hcol =>
    cases (List.cons.inj hm).1
    exact ⟨_, rfl, hcol⟩

/-- The first byte determines the row, so the scan's choice of a row is no choice. -/
theorem stripRow_unique {row row' : List (Nat × Nat)} {b : Byte} {bs rest rest' : Bytes} (hrow : row ∈ utf8Rows)
    (hrow' : row' ∈ utf8Rows) (h : stripRow row (b :: bs) = some rest) (h' : stripRow row' (b :: bs) = some rest') :
    row = row' := by
  by_contra hne
  obtain ⟨col, hcol, hb⟩ := head_of_stripRow hrow h
  obtain ⟨col', hcol', hb'⟩ := head_of_stripRow hrow' h'
  have hapart := utf8Rows_firstApart row hrow row' hrow' hne col hcol col' hcol'
  omega

theorem findSome?_stripRow_iff {b : Byte} {bs rest : Bytes} :
    utf8Rows.findSome? (fun row => stripRow row (b :: bs)) = some rest ↔
      ∃ row ∈ utf8Rows, stripRow row (b :: bs) = some rest := by
  refine ⟨List.exists_of_findSome?_eq_some, fun ⟨row, hrow, h⟩ => ?_⟩
  cases hfind : utf8Rows.findSome? (fun row => stripRow row (b :: bs)) with
  | none => cases (List.findSome?_eq_none_iff.1 hfind row hrow).symm.trans h
  | some rest' =>
    obtain ⟨row', hrow', h'⟩ := List.exists_of_findSome?_eq_some hfind
    cases stripRow_unique hrow hrow' h h'
    exact h'.symm.trans h

/-- What a row leaves is shorter. -/
theorem length_lt_of_stripRow {row : List (Nat × Nat)} {m rest : Bytes} (hrow : row ∈ utf8Rows)
    (h : stripRow row m = some rest) : rest.length < m.length := by
  obtain ⟨q, hq, rfl⟩ := stripRow_eq_some_iff.1 h
  have hpos := List.length_pos_of_ne_nil (utf8Rows_ne_nil row hrow)
  rw [hq.length_eq] at hpos
  rw [List.length_append]
  omega

/-! ### Splitting into rows -/

/-- R122: the sequence is a concatenation of sequences that each match a row of the table. -/
def Splits (m : Bytes) : Prop :=
  ∃ parts : List Bytes, parts.flatten = m ∧ ∀ q ∈ parts, ∃ row, row ∈ utf8Rows ∧ Matches row q

theorem splits_nil : Splits [] := ⟨[], rfl, nofun⟩

/-- A sequence that is not empty splits when one row can be stripped and what is left splits. -/
theorem splits_cons_iff {b : Byte} {bs : Bytes} :
    Splits (b :: bs) ↔ ∃ rest, (∃ row ∈ utf8Rows, stripRow row (b :: bs) = some rest) ∧ Splits rest := by
  constructor
  · rintro ⟨parts, hflat, hparts⟩
    cases parts with
    | nil => cases hflat
    | cons q parts =>
      obtain ⟨⟨row, hrow, hq⟩, hrest⟩ := List.forall_mem_cons.1 hparts
      exact ⟨parts.flatten, ⟨row, hrow, stripRow_eq_some_iff.2 ⟨q, hq, hflat⟩⟩, parts, rfl, hrest⟩
  · rintro ⟨_, ⟨row, hrow, h⟩, parts, rfl, hparts⟩
    obtain ⟨q, hq, hm⟩ := stripRow_eq_some_iff.1 h
    exact ⟨q :: parts, hm, List.forall_mem_cons.2 ⟨⟨row, hrow, hq⟩, hparts⟩⟩

/-- With fuel for each byte the scan answers whether the bytes split. -/
theorem utf8Scan_iff_splits {fuel : Nat} {m : Bytes} (hfuel : m.length ≤ fuel) :
    utf8Scan fuel m = true ↔ Splits m := by
  induction fuel generalizing m with
  | zero =>
    cases List.eq_nil_of_length_eq_zero (Nat.le_zero.1 hfuel)
    exact iff_of_true rfl splits_nil
  | succ fuel ih =>
    cases m with
    | nil => exact iff_of_true rfl splits_nil
    | cons b bs =>
      have hscan : utf8Scan (fuel + 1) (b :: bs) = true ↔ ∃ rest,
          utf8Rows.findSome? (fun row => stripRow row (b :: bs)) = some rest ∧ utf8Scan fuel rest = true := by
        rw [utf8Scan]
        cases utf8Rows.findSome? (fun row => stripRow row (b :: bs)) <;> simp
      rw [hscan, splits_cons_iff]
      refine exists_congr fun rest => ?_
      rw [findSome?_stripRow_iff]
      refine and_congr_right fun ⟨row, hrow, h⟩ => ih ?_
      have hshorter := length_lt_of_stripRow hrow h
      omega

end Sys2Proof.Machine

open Sys2Proof Sys2Proof.Machine Sys2Proof.Safety

/-- Settles O42: the check is the scan with fuel for every byte, and the statement's list is the model's table. -/
theorem utf8ValidIsSplitting : Obligations.Utf8ValidIsSplitting := by
  unfold Obligations.Utf8ValidIsSplitting
  exact fun m => utf8Scan_iff_splits m.length.le_refl

end

section
/-! ENCODE_FRAME and DECODE_FRAME on memory (spec/40_frame_codec.md R124 to R127): the success of the one, the errors
of the other, and that a stored stream loads as itself in either form (R128). -/

namespace Sys2Proof.Machine

open Sys2Proof.Safety

/-! ### The two forms of a stream (R124, R125) -/

theorem lsbPlane_append (s r : Bytes) : lsbPlane (s ++ r) = lsbPlane s ++ lsbPlane r := List.map_append

/-- A stream of whole bytes that is stored loads as itself, packed or unpacked. -/
theorem loadStream_storeStream (p : Bool) {t : Bits} (h : t.length % 8 = 0) : loadStream p (storeStream p t) = t := by
  cases p with
  | false => exact expand_regroup h
  | true => exact lsbPlane_map_bitByte t

/-- The frame of a message as ENCODE_FRAME stores it, in the words of R124 and R125. -/
theorem storeStream_frame (p : Bool) (m : Bytes) : storeStream p (expand (frame m)) =
    if p then (expand (be32 m.length ++ m)).map bitByte else be32 m.length ++ m := by
  cases p with
  | false => exact storeStream_packed m
  | true => rfl

/-! ### ENCODE_FRAME past its checks -/

section
variable {p : Bool} {size : Nat} {o : Operands} {mem : Memory}

theorem encodeFrameCmd_ok (hlen : o.msgLen.toNat < 2 ^ 32) (hmsg : InMem size o.msgAddr.toNat o.msgLen.toNat)
    (hdst : InMem size o.dstAddr.toNat (streamLength p o.msgLen.toNat))
    (hapart : ¬ Overlaps o.dstAddr.toNat (streamLength p o.msgLen.toNat) o.msgAddr.toNat o.msgLen.toNat) :
    encodeFrameCmd p size o mem = finish
      (mem.writeBytes o.dstAddr.toNat
        (storeStream p (expand (frame (mem.readBytes o.msgAddr.toNat o.msgLen.toNat)))))
      false { result := BitVec.ofNat 64 (streamLength p o.msgLen.toNat) } := by
  unfold encodeFrameCmd
  dsimp only
  rw [if_neg (Nat.not_le.2 hlen), if_neg (not_not.2 hmsg), if_neg (not_not.2 hdst), if_neg hapart,
    encodeFrame_of_fits (by rwa [Memory.length_readBytes])]

/-- An ENCODE_FRAME that ends with ERR OK has passed every check. -/
theorem encodeFrameCmd_passed (h : (encodeFrameCmd p size o mem).err = .ok) :
    o.msgLen.toNat < 2 ^ 32 ∧ InMem size o.msgAddr.toNat o.msgLen.toNat ∧
      InMem size o.dstAddr.toNat (streamLength p o.msgLen.toNat) ∧
      ¬ Overlaps o.dstAddr.toNat (streamLength p o.msgLen.toNat) o.msgAddr.toNat o.msgLen.toNat := by
  by_cases hlen : 2 ^ 32 ≤ o.msgLen.toNat
  · rw [encodeFrameCmd_tooLarge mem hlen] at h
    cases h
  have hlen := Nat.not_le.1 hlen
  by_cases hin : InMem size o.msgAddr.toNat o.msgLen.toNat ∧
    InMem size o.dstAddr.toNat (streamLength p o.msgLen.toNat)
  swap
  · rw [encodeFrameCmd_range mem hlen hin] at h
    cases h
  refine ⟨hlen, hin.1, hin.2, fun hover => ?_⟩
  rw [encodeFrameCmd_overlap mem hlen hin.1 hin.2 hover] at h
  cases h

/-- What an ENCODE_FRAME that ends with ERR OK has stored, and where. -/
theorem exec_encodeFrame_ok {s t : State} (h : exec (.encodeFrame p) s = .next t) (hok : t.status.err = .ok) :
    s.lat.operands.msgLen.toNat < 2 ^ 32 ∧
      InMem s.size s.lat.operands.dstAddr.toNat (streamLength p s.lat.operands.msgLen.toNat) ∧
      t = endsInSuccess s (s.mem.writeBytes s.lat.operands.dstAddr.toNat (storeStream p
          (expand (frame (s.mem.readBytes s.lat.operands.msgAddr.toNat s.lat.operands.msgLen.toNat)))))
        false { result := BitVec.ofNat 64 (streamLength p s.lat.operands.msgLen.toNat) } := by
  cases (exec_eq_complete (.encodeFrame p) s).symm.trans h
  obtain ⟨hlen, hmsg, hdst, hapart⟩ := encodeFrameCmd_passed hok
  have hend := exec_of_finish (i := .encodeFrame p) (encodeFrameCmd_ok (mem := s.mem) hlen hmsg hdst hapart)
  exact ⟨hlen, hdst, Host.Outcome.next.inj (h.symm.trans hend)⟩

end

/-! ### DECODE_FRAME's errors, in the order of R201 -/

section
variable {u : Bool} {size s n d : Nat} {t : Bits} {cap len : Nat} {m : Bytes} (mem : Memory)

theorem deliverPayload_error {r : Raise} (hdec : decodeFrame t cap = .error r) :
    deliverPayload u size s n d t cap mem = raise mem r := by
  rw [deliverPayload, hdec]

theorem deliverPayload_range (hdec : decodeFrame t cap = .ok (m, len)) (hin : ¬ InMem size d len) :
    deliverPayload u size s n d t cap mem =
      raise mem { err := .range, regs := { declLen := BitVec.ofNat 64 len } } := by
  rw [deliverPayload, hdec]
  exact if_pos hin

theorem deliverPayload_overlap (hdec : decodeFrame t cap = .ok (m, len)) (hin : InMem size d len)
    (hover : Overlaps d len s n) : deliverPayload u size s n d t cap mem =
      raise mem { err := .overlap, regs := { declLen := BitVec.ofNat 64 len } } := by
  rw [deliverPayload, hdec]
  exact (if_neg (not_not.2 hin)).trans (if_pos hover)

theorem decodeFrameCmd_range {p : Bool} {o : Operands} (hin : ¬ InMem size o.srcAddr.toNat o.srcLen.toNat) :
    decodeFrameCmd p u size o mem = raise mem { err := .range } := if_pos hin

end

/-! ### DECODE_FRAME, once its input is in memory -/

section
variable {p u : Bool} {s : State} (hsrc : InMem s.size s.lat.operands.srcAddr.toNat s.lat.operands.srcLen.toNat)
include hsrc

/-- R193: what `deliverPayload` raises, DECODE_FRAME ends in. -/
theorem exec_decodeFrame_raises {r : Raise}
    (h : deliverPayload u s.size s.lat.operands.srcAddr.toNat s.lat.operands.srcLen.toNat
      s.lat.operands.dstAddr.toNat
      (loadStream p (s.mem.readBytes s.lat.operands.srcAddr.toNat s.lat.operands.srcLen.toNat))
      s.lat.operands.cap.toNat s.mem = raise s.mem r) :
    exec (.decodeFrame p u) s = .next (endsInError s r.err r.ovr r.regs) :=
  exec_of_raise (i := .decodeFrame p u) ((decodeFrameCmd_of_inMem s.mem hsrc).trans h)

/-- R127: a stream that decodes to `m`, with room for `m` apart from the input. -/
theorem exec_decodeFrame_delivers {m : Bytes} {len : Nat}
    (hdec : decodeFrame
      (loadStream p (s.mem.readBytes s.lat.operands.srcAddr.toNat s.lat.operands.srcLen.toNat))
      s.lat.operands.cap.toNat = .ok (m, len))
    (hdst : InMem s.size s.lat.operands.dstAddr.toNat len)
    (hapart : ¬ Overlaps s.lat.operands.dstAddr.toNat len s.lat.operands.srcAddr.toNat
      s.lat.operands.srcLen.toNat) :
    exec (.decodeFrame p u) s = .next (endsInSuccess s (s.mem.writeBytes s.lat.operands.dstAddr.toNat m)
      (utf8Warning u m) { result := BitVec.ofNat 64 len, declLen := BitVec.ofNat 64 len }) :=
  exec_of_finish (i := .decodeFrame p u)
    ((decodeFrameCmd_of_inMem s.mem hsrc).trans (deliverPayload_ok s.mem hdec hdst hapart))

end

/-- R125, R118: an unpacked frame in memory decodes to the bytes regrouped from the bits after its header. -/
theorem decodeFrame_lsbPlane_readBytes {mem : Memory} {a n cap len : Nat}
    (hdecl : headerValue (lsbPlane (mem.readBytes a 32)) = len) (hcap : len ≤ cap) (hfits : 32 + 8 * len ≤ n) :
    decodeFrame (lsbPlane (mem.readBytes a n)) cap =
      .ok (regroup (lsbPlane (mem.readBytes (a + 32) (8 * len))), len) := by
  have hbytes : mem.readBytes a n = mem.readBytes a 32 ++
      (mem.readBytes (a + 32) (8 * len) ++ mem.readBytes (a + 32 + 8 * len) (n - 32 - 8 * len)) := by
    rw [← Memory.readBytes_add, ← Memory.readBytes_add]
    congr 1
    omega
  rw [hbytes, lsbPlane_append, lsbPlane_append, decodeFrame_append _ cap (by simp) (by simp [hdecl]), hdecl,
    if_neg (Nat.not_lt.2 hcap)]

end Sys2Proof.Machine

open Sys2Proof Sys2Proof.Machine Sys2Proof.Safety

/-- Settles O43: past its checks the command stores the frame's stream. -/
theorem encodeFrameSucceeds : Obligations.EncodeFrameSucceeds := by
  unfold Obligations.EncodeFrameSucceeds
  intro p s a ml d outlen m hlen hmsg hdst hapart
  have hstored := storeStream_frame p m
  rw [Memory.length_readBytes] at hstored
  rw [← hstored]
  exact exec_of_finish (i := .encodeFrame p) (encodeFrameCmd_ok hlen hmsg hdst hapart)

/-- Settles O46: the source bytes are header, payload and rest, and the bits of the payload are regrouped. -/
theorem decodeUnpackedSucceeds : Obligations.DecodeUnpackedSucceeds := by
  unfold Obligations.DecodeUnpackedSucceeds
  intro u s src n d len m hsrc hcap hfits hdst hapart
  exact exec_decodeFrame_delivers hsrc (decodeFrame_lsbPlane_readBytes rfl hcap hfits) hdst hapart

/-- Settles O47: the input's range, the decoder's three tests, then the payload's range and overlap. -/
theorem decodeFrameErrors : Obligations.DecodeFrameErrors := by
  unfold Obligations.DecodeFrameErrors
  intro p u s src n d cap t len info ends
  refine ⟨fun hsrc => ?_, fun hsrc hshort => ?_, fun hsrc hhead hcap => ?_, fun hsrc hhead hcap hrun => ?_,
    fun hsrc hfits hcap hdst => ?_, fun hsrc hfits hcap hdst hover => ?_⟩
  · exact exec_of_raise (i := .decodeFrame p u) (decodeFrameCmd_range s.mem hsrc)
  · exact exec_decodeFrame_raises hsrc (deliverPayload_error s.mem (decodeFrame_short hshort))
  · exact exec_decodeFrame_raises hsrc (deliverPayload_error s.mem (decodeFrame_overCap hhead hcap))
  · exact exec_decodeFrame_raises hsrc (deliverPayload_error s.mem (decodeFrame_overrun hhead hcap hrun))
  · exact exec_decodeFrame_raises hsrc (deliverPayload_range s.mem (decodeFrame_fits hcap hfits) hdst)
  · exact exec_decodeFrame_raises hsrc (deliverPayload_overlap s.mem (decodeFrame_fits hcap hfits) hdst hover)

/-- Settles O48: the decoder's input is what the encoder stored, which loads as the frame's stream. -/
theorem frameRoundTripOnMemory : Obligations.FrameRoundTripOnMemory := by
  unfold Obligations.FrameRoundTripOnMemory
  intro p u s t s' a ml henc hok hmem hsize hsrc hn hcap hdst hapart
  obtain ⟨hlen, hout, rfl⟩ := exec_encodeFrame_ok henc hok
  have hm : (s.mem.readBytes a ml).length = ml := Memory.length_readBytes s.mem a ml
  have hinput : s'.lat.operands.srcLen.toNat = streamLength p ml :=
    (congrArg BitVec.toNat hn).trans (toNat_ofNat_of_lt (streamLength_lt hlen))
  have hraw : s'.mem.readBytes s'.lat.operands.srcAddr.toNat s'.lat.operands.srcLen.toNat =
      storeStream p (expand (frame (s.mem.readBytes a ml))) := by
    have hstored := length_storeStream p (s.mem.readBytes a ml)
    rw [hm] at hstored
    rw [hmem, hsrc, hinput, ← hstored]
    exact Memory.readBytes_writeBytes _ _ _
  have hdec : decodeFrame (loadStream p (s'.mem.readBytes s'.lat.operands.srcAddr.toNat
      s'.lat.operands.srcLen.toNat)) s'.lat.operands.cap.toNat = .ok (s.mem.readBytes a ml, ml) := by
    have hround := decodeFrame_expand_frame [] (hm.trans_lt hlen) (hm.trans_le hcap)
    rw [List.append_nil, hm] at hround
    rw [hraw, loadStream_storeStream p (by rw [length_expand]; omega), hround]
  have hsize' : s'.size = s.size := congrArg Fin.val hsize
  have hin : InMem s'.size s'.lat.operands.srcAddr.toNat s'.lat.operands.srcLen.toNat := by
    rwa [hsize', hsrc, hinput]
  refine ⟨_, exec_decodeFrame_delivers hin hdec (by rwa [hsize']) hapart, rfl, ?_, ?_⟩
  · exact (BitVec.ofNat_toNat ..).trans (BitVec.setWidth_eq _)
  · have hback := Memory.readBytes_writeBytes s'.mem s'.lat.operands.dstAddr.toNat (s.mem.readBytes a ml)
    rwa [hm] at hback

end

section
/-! CAPACITY and EMBED (spec/41_pixel_plane.md R160, R161): what an embed does to each element (R155, R164), EMBED's
checks in their order (R201), and what it leaves in memory, in place or as a copy (R156, R157). -/

namespace Sys2Proof.Machine

open Sys2Proof.Safety

/-! ### CAPACITY -/

/-- R92: OP 0x1 is CAPACITY's alone, and CAPACITY has no flag. -/
theorem eq_capacity_of_op : ∀ i, (encode i).toNat % 16 = 1 → i = .capacity := forall_instr (by decide)

/-! ### One element (R155, R166) -/

theorem ushiftRight_one_setLsb (b : Byte) (bit : Bool) : setLsb b bit >>> 1 = b >>> 1 := by
  revert b bit; decide

/-- R164: bytes with the same bits 7:1 are at most 1 apart. -/
theorem toNat_le_succ_of_ushiftRight_one_eq {b o : Byte} (h : o >>> 1 = b >>> 1) : o.toNat ≤ b.toNat + 1 := by
  have hhalf : o.toNat / 2 = b.toNat / 2 := by
    simpa [BitVec.toNat_ushiftRight, Nat.shiftRight_eq_div_pow] using congrArg BitVec.toNat h
  omega

/-! ### The plane of a buffer (R152, R156) -/

/-- R155, R156: an element takes the bit of its index, if there is one. -/
theorem getElem?_writePlane (buf : Bytes) (bits : Bits) (i : Nat) :
    (writePlane buf bits)[i]? = buf[i]?.map fun b => bits[i]?.elim b (setLsb b) := by
  induction buf generalizing bits i with
  | nil => cases bits <;> rfl
  | cons b buf ih =>
    cases bits with
    | nil => simp [writePlane]
    | cons bit bits =>
      cases i with
      | zero => rfl
      | succ i => exact ih bits i

theorem drop_writePlane (buf : Bytes) (bits : Bits) :
    (writePlane buf bits).drop bits.length = buf.drop bits.length := by
  refine List.ext_getElem? fun i => ?_
  rw [List.getElem?_drop, List.getElem?_drop, getElem?_writePlane,
    List.getElem?_eq_none (l := bits) (Nat.le_add_right _ i)]
  exact Option.map_id'

/-- R152: what an embed that succeeds answers. -/
theorem eq_writePlane_of_embedPixels {buf m out : Bytes} (h : embedPixels buf m = .ok out) :
    out = writePlane buf (expand (frame m)) := by
  unfold embedPixels at h
  split at h
  · cases h
  · next bits hbits =>
    cases eq_expand_of_encodeFrame hbits
    split at h
    · cases h
    · exact (Except.ok.inj h).symm

theorem length_of_embedPixels {buf m out : Bytes} (h : embedPixels buf m = .ok out) : out.length = buf.length := by
  rw [eq_writePlane_of_embedPixels h, length_writePlane]

/-- R155: element `i` of an embed's output, by frame bit `i`. -/
theorem getElem?_of_embedPixels {buf m out : Bytes} {i : Nat} {b : Byte} (h : embedPixels buf m = .ok out)
    (hb : buf[i]? = some b) : out[i]? = some ((expand (frame m))[i]?.elim b (setLsb b)) := by
  rw [eq_writePlane_of_embedPixels h, getElem?_writePlane, hb]
  rfl

theorem getElem?_expand_frame_eq_none {m : Bytes} {i : Nat} (h : 8 * (4 + m.length) ≤ i) :
    (expand (frame m))[i]? = none :=
  List.getElem?_eq_none (by rwa [length_expand, length_frame])

theorem drop_of_embedPixels {buf m out : Bytes} (h : embedPixels buf m = .ok out) :
    out.drop (8 * (4 + m.length)) = buf.drop (8 * (4 + m.length)) := by
  have hbits : (expand (frame m)).length = 8 * (4 + m.length) := by rw [length_expand, length_frame]
  rw [eq_writePlane_of_embedPixels h, ← hbits, drop_writePlane]

/-! ### Bytes written over a range in part -/

theorem Memory.getElem?_readBytes {m : Memory} {a n i : Nat} (h : i < n) :
    (m.readBytes a n)[i]? = some (m.read (a + i)) := by
  rw [List.getElem?_eq_getElem (by rwa [Memory.length_readBytes]), Memory.getElem_readBytes]

/-- Writing the first `k` bytes of `out` over bytes that agree with `out` from there on leaves `out`. -/
theorem Memory.readBytes_writeBytes_take {mem : Memory} {a k : Nat} {out : Bytes} (hk : k ≤ out.length)
    (hrest : (mem.readBytes a out.length).drop k = out.drop k) :
    (mem.writeBytes a (out.take k)).readBytes a out.length = out := by
  have hfirst : (out.take k).length = k := List.length_take_of_le hk
  have hcut := Memory.readBytes_add mem a k (out.length - k)
  rw [Nat.add_sub_of_le hk] at hcut
  have hwritten := Memory.readBytes_writeBytes mem a (out.take k)
  rw [hfirst] at hwritten
  have hapart : ¬ Overlaps (a + k) (out.length - k) a (out.take k).length := by
    rw [hfirst]
    omega
  calc (mem.writeBytes a (out.take k)).readBytes a out.length
      = (mem.writeBytes a (out.take k)).readBytes a k
          ++ (mem.writeBytes a (out.take k)).readBytes (a + k) (out.length - k) := by
        rw [← Memory.readBytes_add, Nat.add_sub_of_le hk]
    _ = out.take k ++ mem.readBytes (a + k) (out.length - k) := by
        rw [hwritten, Memory.readBytes_writeBytes_apart mem hapart]
    _ = out := by
        rw [hcut, List.drop_left' (Memory.length_readBytes mem a k)] at hrest
        rw [hrest, List.take_append_drop]

/-! ### EMBED's checks, in the order of R201 -/

/-- How many bytes EMBED writes (R161). -/
abbrev embedWritten (o : Operands) : Nat :=
  embedLength o.dstAddr.toNat o.srcAddr.toNat o.srcLen.toNat o.msgLen.toNat

/-- R161: the checks of EMBED. -/
structure EmbedPasses (size : Nat) (o : Operands) : Prop where
  header : o.msgLen.toNat < 2 ^ 32
  fits : 4 + o.msgLen.toNat ≤ capacity o.srcLen.toNat
  buffer : InMem size o.srcAddr.toNat o.srcLen.toNat
  message : InMem size o.msgAddr.toNat o.msgLen.toNat
  output : InMem size o.dstAddr.toNat (embedWritten o)
  apartMessage : ¬ Overlaps o.dstAddr.toNat (embedWritten o) o.msgAddr.toNat o.msgLen.toNat
  apartBuffer : ¬ (o.dstAddr.toNat ≠ o.srcAddr.toNat ∧
    Overlaps o.dstAddr.toNat o.srcLen.toNat o.srcAddr.toNat o.srcLen.toNat)

section
variable {size : Nat} {o : Operands} (mem : Memory)

theorem embedCmd_tooLarge (hlen : 2 ^ 32 ≤ o.msgLen.toNat) :
    embedCmd size o mem = raise mem { err := .messageTooLarge } := if_pos hlen

theorem embedCmd_capacityExceeded (hlen : o.msgLen.toNat < 2 ^ 32)
    (hcap : capacity o.srcLen.toNat < 4 + o.msgLen.toNat) : embedCmd size o mem =
      raise mem { err := .capacityExceeded, regs := embedInfo o.msgLen.toNat o.srcLen.toNat } :=
  (if_neg (Nat.not_le.2 hlen)).trans (if_pos hcap)

theorem embedCmd_range (hlen : o.msgLen.toNat < 2 ^ 32)
    (hfits : 4 + o.msgLen.toNat ≤ capacity o.srcLen.toNat)
    (hin : ¬ (InMem size o.srcAddr.toNat o.srcLen.toNat ∧ InMem size o.msgAddr.toNat o.msgLen.toNat ∧
      InMem size o.dstAddr.toNat (embedWritten o))) :
    embedCmd size o mem = raise mem { err := .range, regs := embedInfo o.msgLen.toNat o.srcLen.toNat } := by
  unfold embedCmd
  dsimp only
  rw [if_neg (Nat.not_le.2 hlen), if_neg (Nat.not_lt.2 hfits)]
  by_cases hbuf : InMem size o.srcAddr.toNat o.srcLen.toNat
  swap
  · rw [if_pos hbuf]
  by_cases hmsg : InMem size o.msgAddr.toNat o.msgLen.toNat
  swap
  · rw [if_neg (not_not.2 hbuf), if_pos hmsg]
  rw [if_neg (not_not.2 hbuf), if_neg (not_not.2 hmsg), if_pos fun hdst => hin ⟨hbuf, hmsg, hdst⟩]

theorem embedCmd_overlap (hlen : o.msgLen.toNat < 2 ^ 32)
    (hfits : 4 + o.msgLen.toNat ≤ capacity o.srcLen.toNat)
    (hbuf : InMem size o.srcAddr.toNat o.srcLen.toNat) (hmsg : InMem size o.msgAddr.toNat o.msgLen.toNat)
    (hdst : InMem size o.dstAddr.toNat (embedWritten o))
    (hover : Overlaps o.dstAddr.toNat (embedWritten o) o.msgAddr.toNat o.msgLen.toNat ∨
      (o.dstAddr.toNat ≠ o.srcAddr.toNat ∧
        Overlaps o.dstAddr.toNat o.srcLen.toNat o.srcAddr.toNat o.srcLen.toNat)) :
    embedCmd size o mem = raise mem { err := .overlap, regs := embedInfo o.msgLen.toNat o.srcLen.toNat } := by
  unfold embedCmd
  dsimp only
  rw [if_neg (Nat.not_le.2 hlen), if_neg (Nat.not_lt.2 hfits), if_neg (not_not.2 hbuf), if_neg (not_not.2 hmsg),
    if_neg (not_not.2 hdst)]
  by_cases hover' : Overlaps o.dstAddr.toNat (embedWritten o) o.msgAddr.toNat o.msgLen.toNat
  · rw [if_pos hover']
  · rw [if_neg hover', if_pos (hover.resolve_left hover')]

/-- An EMBED whose frame fits raises RANGE or OVERLAP, or passes every check. -/
theorem embedCmd_cases_of_fits (hlen : o.msgLen.toNat < 2 ^ 32)
    (hfits : 4 + o.msgLen.toNat ≤ capacity o.srcLen.toNat) :
    (embedCmd size o mem).err = .range ∨ (embedCmd size o mem).err = .overlap ∨ EmbedPasses size o := by
  by_cases hin : InMem size o.srcAddr.toNat o.srcLen.toNat ∧ InMem size o.msgAddr.toNat o.msgLen.toNat ∧
      InMem size o.dstAddr.toNat (embedWritten o)
  swap
  · exact Or.inl (by rw [embedCmd_range mem hlen hfits hin]; rfl)
  obtain ⟨hbuf, hmsg, hdst⟩ := hin
  by_cases hover : Overlaps o.dstAddr.toNat (embedWritten o) o.msgAddr.toNat o.msgLen.toNat ∨
      (o.dstAddr.toNat ≠ o.srcAddr.toNat ∧
        Overlaps o.dstAddr.toNat o.srcLen.toNat o.srcAddr.toNat o.srcLen.toNat)
  · exact Or.inr (Or.inl (by rw [embedCmd_overlap mem hlen hfits hbuf hmsg hdst hover]; rfl))
  · obtain ⟨hmessage, hbuffer⟩ := not_or.1 hover
    exact Or.inr (Or.inr ⟨hlen, hfits, hbuf, hmsg, hdst, hmessage, hbuffer⟩)

end

/-! ### EMBED past its checks -/

section
variable {size : Nat} {o : Operands} {mem : Memory} {out : Bytes}

/-- An EMBED that ends with ERR OK has passed every check. -/
theorem embedPasses_of_ok (hok : (embedCmd size o mem).err = .ok) : EmbedPasses size o := by
  by_cases hlen : 2 ^ 32 ≤ o.msgLen.toNat
  · rw [embedCmd_tooLarge mem hlen] at hok
    cases hok
  have hlen := Nat.not_le.1 hlen
  by_cases hcap : capacity o.srcLen.toNat < 4 + o.msgLen.toNat
  · rw [embedCmd_capacityExceeded mem hlen hcap] at hok
    cases hok
  rcases embedCmd_cases_of_fits (size := size) mem hlen (Nat.not_lt.1 hcap) with hrange | hover | hpasses
  · cases hrange.symm.trans hok
  · cases hover.symm.trans hok
  · exact hpasses

theorem EmbedPasses.exists_embed (h : EmbedPasses size o) (mem : Memory) :
    ∃ out, embedPixels (mem.readBytes o.srcAddr.toNat o.srcLen.toNat)
      (mem.readBytes o.msgAddr.toNat o.msgLen.toNat) = .ok out :=
  ⟨_, embedPixels_of_fits (by rw [Memory.length_readBytes]; exact h.header)
    (by rw [Memory.length_readBytes, Memory.length_readBytes]; exact h.fits)⟩

theorem EmbedPasses.embedCmd_eq (h : EmbedPasses size o)
    (hout : embedPixels (mem.readBytes o.srcAddr.toNat o.srcLen.toNat)
      (mem.readBytes o.msgAddr.toNat o.msgLen.toNat) = .ok out) :
    embedCmd size o mem = finish (mem.writeBytes o.dstAddr.toNat (out.take (embedWritten o))) false
      { embedInfo o.msgLen.toNat o.srcLen.toNat with
        result := BitVec.ofNat 64 (embedWritten o)
        utilNum := BitVec.ofNat 64 (8 * (4 + o.msgLen.toNat))
        utilDen := BitVec.ofNat 64 (8 * capacity o.srcLen.toNat) } := by
  unfold embedCmd
  dsimp only
  rw [if_neg (Nat.not_le.2 h.header), if_neg (Nat.not_lt.2 h.fits), if_neg (not_not.2 h.buffer),
    if_neg (not_not.2 h.message), if_neg (not_not.2 h.output), if_neg h.apartMessage, if_neg h.apartBuffer, hout]

theorem EmbedPasses.frame_le (h : EmbedPasses size o) : 8 * (4 + o.msgLen.toNat) ≤ o.srcLen.toNat := by
  have hfits := h.fits
  unfold capacity at hfits
  omega

theorem EmbedPasses.written_le (h : EmbedPasses size o) : embedWritten o ≤ o.srcLen.toNat := by
  have hframe := h.frame_le
  unfold embedWritten embedLength
  split <;> omega

/-- The whole output buffer is in data memory, though in place only the frame's elements are written. -/
theorem EmbedPasses.outputBuffer (h : EmbedPasses size o) : InMem size o.dstAddr.toNat o.srcLen.toNat := by
  by_cases hplace : o.dstAddr.toNat = o.srcAddr.toNat
  · rw [hplace]
    exact h.buffer
  · have hdst := h.output
    rwa [embedWritten, embedLength, if_neg hplace] at hdst

/-- R156, R157: in place or as a copy, the output buffer holds the embed of the message in the buffer. -/
theorem EmbedPasses.readBytes_output (h : EmbedPasses size o)
    (hout : embedPixels (mem.readBytes o.srcAddr.toNat o.srcLen.toNat)
      (mem.readBytes o.msgAddr.toNat o.msgLen.toNat) = .ok out) :
    (mem.writeBytes o.dstAddr.toNat (out.take (embedWritten o))).readBytes o.dstAddr.toNat o.srcLen.toNat = out := by
  have hlength := length_of_embedPixels hout
  have hdrop := drop_of_embedPixels hout
  rw [Memory.length_readBytes] at hlength hdrop
  rw [← hlength]
  refine Memory.readBytes_writeBytes_take (hlength ▸ h.written_le) ?_
  rw [hlength, embedWritten, embedLength]
  by_cases hplace : o.dstAddr.toNat = o.srcAddr.toNat
  · rw [if_pos hplace, hplace, hdrop]
  · rw [if_neg hplace, List.drop_of_length_le (by simp), List.drop_of_length_le hlength.le]

/-- What an EMBED that ends with ERR OK has passed, and what it has stored. -/
theorem exec_embed_ok {s t : State} (h : exec .embed s = .next t) (hok : t.status.err = .ok) :
    EmbedPasses s.size s.lat.operands ∧ ∃ out,
      embedPixels (s.mem.readBytes s.lat.operands.srcAddr.toNat s.lat.operands.srcLen.toNat)
        (s.mem.readBytes s.lat.operands.msgAddr.toNat s.lat.operands.msgLen.toNat) = .ok out ∧
      t.mem = s.mem.writeBytes s.lat.operands.dstAddr.toNat (out.take (embedWritten s.lat.operands)) := by
  cases (exec_eq_complete .embed s).symm.trans h
  have hpasses : EmbedPasses s.size s.lat.operands := embedPasses_of_ok hok
  obtain ⟨out, hout⟩ := hpasses.exists_embed s.mem
  exact ⟨hpasses, out, hout, congrArg CmdResult.mem (hpasses.embedCmd_eq hout)⟩

end

end Sys2Proof.Machine

open Sys2Proof Sys2Proof.Machine Sys2Proof.Safety

/-- Settles O49: no other command's word has OP 0x1, and the command has no test. -/
theorem capacityReports : Obligations.CapacityReports := by
  unfold Obligations.CapacityReports
  refine ⟨decode_encode .capacity, fun w hop hne => ?_, fun s => exec_of_finish (i := .capacity) rfl⟩
  rw [decode_illegal_iff, decode_legal_iff]
  rintro ⟨i, rfl⟩
  cases eq_capacity_of_op i hop
  exact hne rfl

/-- Settles O50: an element takes its bit if it has one, and its bits 7:1 are kept. -/
theorem embedElements : Obligations.EmbedElements := by
  unfold Obligations.EmbedElements
  intro buf m out h
  refine ⟨length_of_embedPixels h, fun i b o hb ho => ?_⟩
  have helem : (expand (frame m))[i]?.elim b (setLsb b) = o :=
    Option.some.inj ((getElem?_of_embedPixels h hb).symm.trans ho)
  have hhigh : o >>> 1 = b >>> 1 := by
    rw [← helem]
    cases (expand (frame m))[i]? with
    | none => rfl
    | some bit => exact ushiftRight_one_setLsb b bit
  refine ⟨fun hpast => ?_, fun bit hbit => ?_, hhigh, toNat_le_succ_of_ushiftRight_one_eq hhigh,
    toNat_le_succ_of_ushiftRight_one_eq hhigh.symm⟩
  · rw [getElem?_expand_frame_eq_none hpast] at helem
    exact helem.symm
  · rw [frame, hbit] at helem
    exact helem.symm

/-- Settles O52: the output buffer reads as the embed, and nothing past the written bytes is touched. -/
theorem embedSucceeds : Obligations.EmbedSucceeds := by
  unfold Obligations.EmbedSucceeds
  intro s src n a ml d f wlen bits hlen hfits hsrc hmsg hdst hmessage hbuffer
  have hpasses : EmbedPasses s.size s.lat.operands :=
    ⟨hlen, hfits, hsrc, hmsg, hdst, hmessage, fun hover => hbuffer.elim hover.1 fun hapart => hapart hover.2⟩
  obtain ⟨out, hout⟩ := hpasses.exists_embed s.mem
  have hwritten : (out.take wlen).length ≤ wlen := List.length_take_le ..
  refine ⟨_, exec_of_finish (i := .embed) (hpasses.embedCmd_eq hout), fun i hi => ?_, fun b hb =>
    Memory.read_writeBytes_outside s.mem fun hin => hb ⟨hin.1, hin.2.trans_le (Nat.add_le_add_left hwritten d)⟩⟩
  have helem := getElem?_of_embedPixels hout (Memory.getElem?_readBytes hi)
  rw [← hpasses.readBytes_output hout, Memory.getElem?_readBytes hi] at helem
  have hframe : expand (frame (s.mem.readBytes a ml)) = bits := by rw [frame, Memory.length_readBytes]
  have hbits : bits.length = 8 * f := by rw [← hframe, length_expand, length_frame, Memory.length_readBytes]
  rw [Option.some.inj helem, hframe, ← hbits]
  split
  · next hbit =>
    rw [List.getD_eq_getElem _ _ hbit, List.getElem?_eq_getElem hbit]
    rfl
  · next hpast =>
    rw [List.getElem?_eq_none (Nat.not_lt.1 hpast)]
    rfl

/-- Settles O53, each error by the tests before it. -/
theorem embedErrors : Obligations.EmbedErrors := by
  unfold Obligations.EmbedErrors
  intro s src n a ml d wlen info ends
  refine ⟨fun hlen => ?_, fun hlen hcap => ?_, fun hlen hfits hin => ?_,
    fun hlen hfits hsrc hmsg hdst hover => ?_⟩
  · exact exec_of_raise (i := .embed) (embedCmd_tooLarge s.mem hlen)
  · exact exec_of_raise (i := .embed) (embedCmd_capacityExceeded s.mem hlen hcap)
  · exact exec_of_raise (i := .embed) (embedCmd_range s.mem hlen hfits hin)
  · exact exec_of_raise (i := .embed) (embedCmd_overlap s.mem hlen hfits hsrc hmsg hdst hover)

/-- Settles O56: of a frame that fits, no later test and no success answers this error. -/
theorem embedCapacityBoundary : Obligations.EmbedCapacityBoundary := by
  unfold Obligations.EmbedCapacityBoundary
  intro s t hlen h
  cases (exec_eq_complete .embed s).symm.trans h
  change (embedCmd s.size s.lat.operands s.mem).err = .capacityExceeded ↔ _
  refine ⟨fun herr hfits => ?_, fun hcap => ?_⟩
  · rcases embedCmd_cases_of_fits (size := s.size) s.mem hlen hfits with hrange | hover | hpasses
    · cases hrange.symm.trans herr
    · cases hover.symm.trans herr
    · obtain ⟨out, hout⟩ := hpasses.exists_embed s.mem
      rw [hpasses.embedCmd_eq hout] at herr
      cases herr
  · rw [embedCmd_capacityExceeded s.mem hlen (Nat.not_le.1 hcap)]
    rfl

end

section
/-! EXTRACT (spec/41_pixel_plane.md R162): its success and its errors, that it is the unpacked DECODE_FRAME with the
buffer's capacity for a bound (R167), an all-zero header (R168), and that it undoes EMBED on memory (R163). -/

namespace Sys2Proof.Machine

open Sys2Proof.Safety

/-- R167: EXTRACT is DECODE_FRAME with P = 1 and CAP the capacity of the buffer. -/
theorem extractCmd_eq_decodeFrameCmd {u : Bool} {size : Nat} {o o' : Operands} (mem : Memory)
    (hsrc : o'.srcAddr = o.srcAddr) (hn : o'.srcLen = o.srcLen) (hdst : o'.dstAddr = o.dstAddr)
    (hcap : o'.cap.toNat = capacity o.srcLen.toNat) :
    extractCmd u size o mem = decodeFrameCmd true u size o' mem := by
  unfold extractCmd decodeFrameCmd
  rw [hsrc, hn, hdst, hcap]
  rfl

/-! ### EXTRACT, once its buffer is in memory -/

section
variable {u : Bool} {s : State}

theorem exec_extract_range (hsrc : ¬ InMem s.size s.lat.operands.srcAddr.toNat s.lat.operands.srcLen.toNat) :
    exec (.extract u) s = .next (endsInError s .range false {}) :=
  exec_of_raise (i := .extract u) (if_pos hsrc)

variable (hsrc : InMem s.size s.lat.operands.srcAddr.toNat s.lat.operands.srcLen.toNat)
include hsrc

theorem execute_extract_of_inMem : execute (.extract u) s.size s.lat.operands s.mem =
    deliverPayload u s.size s.lat.operands.srcAddr.toNat s.lat.operands.srcLen.toNat s.lat.operands.dstAddr.toNat
      (lsbPlane (s.mem.readBytes s.lat.operands.srcAddr.toNat s.lat.operands.srcLen.toNat))
      (capacity s.lat.operands.srcLen.toNat) s.mem := if_neg (not_not.2 hsrc)

/-- R158, R193: what the decoder raises on the buffer's plane, EXTRACT ends in. -/
theorem exec_extract_raises {r : Raise}
    (hdec : decodeFrame (lsbPlane (s.mem.readBytes s.lat.operands.srcAddr.toNat s.lat.operands.srcLen.toNat))
      (capacity s.lat.operands.srcLen.toNat) = .error r) :
    exec (.extract u) s = .next (endsInError s r.err r.ovr r.regs) :=
  exec_of_raise ((execute_extract_of_inMem hsrc).trans (deliverPayload_error s.mem hdec))

/-- R162: a plane that decodes to `m`, with room for `m` apart from the buffer. -/
theorem exec_extract_delivers {m : Bytes} {len : Nat}
    (hdec : decodeFrame (lsbPlane (s.mem.readBytes s.lat.operands.srcAddr.toNat s.lat.operands.srcLen.toNat))
      (capacity s.lat.operands.srcLen.toNat) = .ok (m, len))
    (hdst : InMem s.size s.lat.operands.dstAddr.toNat len)
    (hapart : ¬ Overlaps s.lat.operands.dstAddr.toNat len s.lat.operands.srcAddr.toNat
      s.lat.operands.srcLen.toNat) :
    exec (.extract u) s = .next (endsInSuccess s (s.mem.writeBytes s.lat.operands.dstAddr.toNat m)
      (utf8Warning u m) { result := BitVec.ofNat 64 len, declLen := BitVec.ofNat 64 len }) :=
  exec_of_finish ((execute_extract_of_inMem hsrc).trans (deliverPayload_ok s.mem hdec hdst hapart))

end

/-! ### The header in the plane -/

/-- R158: the header is the plane of the first 32 elements. -/
theorem take_lsbPlane_readBytes {mem : Memory} {a n : Nat} (h : 32 ≤ n) :
    (lsbPlane (mem.readBytes a n)).take 32 = lsbPlane (mem.readBytes a 32) := by
  have hcut := Memory.readBytes_add mem a 32 (n - 32)
  rw [Nat.add_sub_of_le h] at hcut
  rw [hcut, lsbPlane_append, List.take_left' (by simp)]

/-- A buffer that holds the declared frame has the capacity to. -/
theorem le_capacity_of_frame_le {len n : Nat} (h : 32 + 8 * len ≤ n) : len ≤ capacity n := by
  unfold capacity
  omega

theorem lsbPlane_readBytes_of_zero {mem : Memory} {a n : Nat}
    (h : ∀ i, i < n → (mem.read (a + i)).getLsbD 0 = false) :
    lsbPlane (mem.readBytes a n) = List.replicate n false := by
  refine List.eq_replicate_iff.2 ⟨by simp, fun bit hbit => ?_⟩
  obtain ⟨i, hi, rfl⟩ := List.getElem_of_mem hbit
  rw [length_lsbPlane, Memory.length_readBytes] at hi
  simp only [lsbPlane, List.getElem_map, Memory.getElem_readBytes]
  exact h i hi

/-- R163, in the decoder's terms: the plane of an embed decodes to the message. -/
theorem decodeFrame_lsbPlane_of_embedPixels {buf m out : Bytes} (hlen : m.length < 2 ^ 32)
    (hfits : 4 + m.length ≤ capacity buf.length) (hout : embedPixels buf m = .ok out) :
    decodeFrame (lsbPlane out) (capacity buf.length) = .ok (m, m.length) := by
  obtain ⟨out', hout', hextract⟩ := embedExtractRoundTrip buf m hlen hfits
  cases hout.symm.trans hout'
  rwa [extractPixels, length_of_embedPixels hout] at hextract

/-- R122, R123: the empty message is valid UTF-8. -/
theorem utf8Warning_nil (u : Bool) : utf8Warning u [] = false := by cases u <;> rfl

end Sys2Proof.Machine

open Sys2Proof Sys2Proof.Machine Sys2Proof.Safety

/-- Settles O54: the plane is header, payload and rest, and the bits of the payload are regrouped. -/
theorem extractSucceeds : Obligations.ExtractSucceeds := by
  unfold Obligations.ExtractSucceeds
  intro u s src n d len m hsrc hfits hdst hapart
  have hdec := decodeFrame_lsbPlane_readBytes (mem := s.mem) (a := src) rfl (le_capacity_of_frame_le hfits) hfits
  exact exec_extract_delivers hsrc hdec hdst hapart

/-- Settles O55: the buffer's range, the decoder's three tests, then the payload's range and overlap. -/
theorem extractErrors : Obligations.ExtractErrors := by
  unfold Obligations.ExtractErrors
  intro u s src n d len info ends
  have hlength : (lsbPlane (s.mem.readBytes src n)).length = n := by simp
  have hheader (h : 32 ≤ n) : Machine.headerValue ((lsbPlane (s.mem.readBytes src n)).take 32) = len := by
    rw [take_lsbPlane_readBytes h]
  have hdec (hfits : 32 + 8 * len ≤ n) :=
    decodeFrame_lsbPlane_readBytes (mem := s.mem) (a := src) rfl (le_capacity_of_frame_le hfits) hfits
  refine ⟨exec_extract_range, fun hsrc hshort => ?_, fun hsrc hhead hcap => ?_, fun hsrc hhead hrun hcap => ?_,
    fun hsrc hfits hdst => ?_, fun hsrc hfits hdst hover => ?_⟩
  · exact exec_extract_raises hsrc (decodeFrame_short (hlength.trans_lt hshort))
  · have hraise := decodeFrame_overCap (hlength.symm ▸ hhead) ((hheader hhead).symm ▸ hcap)
    rw [hheader hhead] at hraise
    exact exec_extract_raises hsrc hraise
  · have hraise := decodeFrame_overrun (hlength.symm ▸ hhead) ((hheader hhead).symm ▸ hcap)
      (by rw [hlength, hheader hhead]; omega)
    rw [hheader hhead] at hraise
    exact exec_extract_raises hsrc hraise
  · exact exec_of_raise ((execute_extract_of_inMem hsrc).trans (deliverPayload_range s.mem (hdec hfits) hdst))
  · exact exec_of_raise
      ((execute_extract_of_inMem hsrc).trans (deliverPayload_overlap s.mem (hdec hfits) hdst hover))

/-- Settles O57: on one memory the two commands answer the same, and completion keeps REJ. -/
theorem extractIsUnpackedDecode : Obligations.ExtractIsUnpackedDecode := by
  unfold Obligations.ExtractIsUnpackedDecode
  intro u s s' t t' hmem hsize hsrc hn hdst hcap hrej hext hdec
  have hsize' : s'.size = s.size := congrArg Fin.val hsize
  have hsame := extractCmd_eq_decodeFrameCmd (u := u) (size := s.size) s.mem hsrc hn hdst hcap
  cases (exec_eq_complete (.extract u) s).symm.trans hext
  cases (exec_eq_complete (.decodeFrame true u) s').symm.trans hdec
  simp only [execute, hmem, hsize', hsame, readReg, complete_mem, complete_results, complete_phase, complete_status,
    hrej, and_self]

/-- Settles O58: the header declares the length 0, and no payload is written. -/
theorem zeroHeaderIsEmptyMessage : Obligations.ZeroHeaderIsEmptyMessage := by
  unfold Obligations.ZeroHeaderIsEmptyMessage
  intro u s hhead hsrc hzero
  have hdecl : Machine.headerValue (lsbPlane (s.mem.readBytes s.lat.operands.srcAddr.toNat 32)) = 0 := by
    rw [lsbPlane_readBytes_of_zero hzero]
    rfl
  have hdec := decodeFrame_lsbPlane_readBytes hdecl (Nat.zero_le (capacity s.lat.operands.srcLen.toNat)) hhead
  have hend : exec (.extract u) s = .next (endsInSuccess s s.mem (utf8Warning u []) {}) :=
    exec_extract_delivers hsrc hdec (Or.inl rfl) fun hover => Nat.lt_irrefl 0 hover.1
  rw [hend, utf8Warning_nil]

/-- Settles O59: the buffer that EXTRACT reads is the embed of the message, in place or as a copy. -/
theorem embedExtractOnMemory : Obligations.EmbedExtractOnMemory := by
  unfold Obligations.EmbedExtractOnMemory
  intro u s t s' a ml hemb hok hmem hsize hsrc hn hdst hapart
  obtain ⟨hpasses, out, hout, hstored⟩ := exec_embed_ok hemb hok
  have hm : (s.mem.readBytes a ml).length = ml := Memory.length_readBytes s.mem a ml
  have hbuffer : s'.mem.readBytes s'.lat.operands.srcAddr.toNat s'.lat.operands.srcLen.toNat = out := by
    rw [hmem, hstored, hsrc, hn, hpasses.readBytes_output hout]
  have hdec := decodeFrame_lsbPlane_of_embedPixels (hm.trans_lt hpasses.header)
    (by rw [hm, Memory.length_readBytes]; exact hpasses.fits) hout
  rw [Memory.length_readBytes, ← hn, hm, ← hbuffer] at hdec
  have hsize' : s'.size = s.size := congrArg Fin.val hsize
  have hin : InMem s'.size s'.lat.operands.srcAddr.toNat s'.lat.operands.srcLen.toNat := by
    rw [hsize', hsrc, hn]
    exact hpasses.outputBuffer
  refine ⟨_, exec_extract_delivers hin hdec (by rwa [hsize']) hapart, rfl, ?_, ?_⟩
  · exact (BitVec.ofNat_toNat ..).trans (BitVec.setWidth_eq _)
  · have hback := Memory.readBytes_writeBytes s'.mem s'.lat.operands.dstAddr.toNat (s.mem.readBytes a ml)
    rwa [hm] at hback

end

section
/-! What every completion says of STATUS (spec/60_exceptions.md R202), what an error leaves unchanged (R193, R203), and
the end of a run (spec/70_reset_and_hazards.md R237). -/

namespace Sys2Proof.Machine

open Sys2Proof.Safety

/-! ### How a completion ends, for a legal and an illegal word -/

/-- R44, R96: the BUSY engine's turn completes with an effect of the latched command; an illegal word ends as any
command that raises does. -/
theorem engineTurn_effect {s : State} (hz : s.hazardFault = false) (hb : s.phase = .busy) :
    ∃ i r, engineTurn s = .next (complete s r) ∧ Effect i s r := by
  cases hd : decode s.lat.cmd with
  | legal i =>
    obtain ⟨r, he, heffect⟩ := exec_effect i s
    exact ⟨i, r, (engineTurn_eq hz hb hd).trans he, heffect⟩
  | illegal why => exact ⟨.capacity, _, engineTurn_illegal hz hb hd, illegalWord_effect .capacity s⟩

/-- The step in which a BUSY engine moves completes with an effect. -/
theorem step_effect {s e : State} (hm : EngineMoves s e) (hz : s.hazardFault = false) (hb : s.phase = .busy) :
    ∃ i r, step s = .next (complete e r) ∧ Effect i e r := by
  rw [step_engineMoves hm]
  obtain ⟨ts, rfl⟩ := engineMoves_takenOff hm
  exact engineTurn_effect hz hb

/-- R193: the completion of an effect with an error is the end that `raise` gives. -/
theorem Effect.complete_of_error {i : Instr} {s : State} {r : CmdResult} (h : Effect i s r) (he : r.err ≠ .ok) :
    complete s r = endsInError s r.err r.ovr r.regs := by
  cases h with
  | error => rfl
  | success => exact (he rfl).elim

/-! ### The host with nothing left to run -/

/-- R237: a host whose program has ended does nothing. -/
theorem hostTurn_done {s : State} (hz : s.hazardFault = false) (ho : s.host = []) : hostTurn s = .next s := by
  rw [hostTurn, hz, if_neg Bool.false_ne_true, ho]

/-- With nothing scheduled and an IDLE engine it is the host's turn. -/
theorem step_unscheduled_idle {s : State} (ht : s.turns = []) (hi : s.phase = .idle) : step s = hostTurn s := by
  simp only [step, takeTurn, ht, hi]

end Sys2Proof.Machine

open Sys2Proof Sys2Proof.Machine Sys2Proof.Safety

/-- Settles O23: the effect of the completion says what R202 says of the warning and of OVR, and completion keeps
REJ. -/
theorem errorAndWarningExclusive : Obligations.ErrorAndWarningExclusive := by
  unfold Obligations.ErrorAndWarningExclusive
  intro s e t hm hb hz hstep
  obtain ⟨i, r, hdone, heffect⟩ := step_effect hm hz hb
  cases hdone.symm.trans hstep
  have hrej : e.status.rej = s.status.rej := by rw [engineMoves_eq hm]
  exact ⟨heffect.warn_only_ok, heffect.ovr_only_unencoded, hrej⟩

/-- Settles O24, by the two ends of a command: only `raise` has an error, and it leaves memory. -/
theorem errorsWriteNothing : Obligations.ErrorsWriteNothing := by
  unfold Obligations.ErrorsWriteNothing
  intro i s t h herr
  obtain ⟨r, he, heffect⟩ := exec_effect i s
  cases he.symm.trans h
  exact heffect.complete_of_error herr

/-- Settles O60: at a good end it is the turn of a host with nothing to run; while BUSY the unscheduled engine
completes, and completion keeps the program, the schedule and the hazard flag. -/
theorem endOfRunIsQuiet : Obligations.EndOfRunIsQuiet := by
  unfold Obligations.EndOfRunIsQuiet
  intro s ht
  refine ⟨fun hgood => ?_, fun ho hb hz => ?_⟩
  · obtain ⟨ho, hi, hz⟩ := hgood
    exact (step_unscheduled_idle ht hi).trans (hostTurn_done hz ho)
  · obtain ⟨r, hdone⟩ := step_completes (Or.inl ⟨ht, hb, rfl⟩) hz hb
    exact ⟨complete s r, hdone, ⟨ho, complete_phase s r, hz⟩, ht⟩

end

section
/-! A host load while a command is BUSY (spec/70_reset_and_hazards.md R229), the two moves of the reset input, and the
first CMD write after reset (R220, R224). -/

namespace Sys2Proof.Machine

open Sys2Proof.Safety

/-! ### A load from WS -/

/-- R229: a load in WS of a BUSY command returns a free byte, and the next draw is another one. -/
theorem hostLoad_draws {s : State} {a : Word} (ha : a.toNat < s.size) (hb : s.phase = .busy)
    (hw : InRanges s.footprint.writes a.toNat) :
    hostLoad s a =
      .next (receive { s with draws := s.draws + 1 } (.byte a (Config.freeByte s.draws a.toNat))) :=
  (if_neg (Nat.not_le.2 ha)).trans (if_pos ⟨hb, hw⟩)

/-! ### The reset input -/

theorem step_resetAssert {s : State} {ts : List Turn} (ht : s.turns = .resetAssert :: ts) :
    step s = .next (assertReset { s with turns := ts }) := by
  rw [step, takeTurn, ht]

theorem step_resetRelease {s : State} {ts : List Turn} (ht : s.turns = .resetRelease :: ts) :
    step s = .next (releaseReset { s with turns := ts }) := by
  rw [step, takeTurn, ht]

/-- R220, R223: a run that asserts reset and releases it goes on from the block as reset leaves it. -/
theorem run_resetPulse {s : State} {ts : List Turn} (k : Nat)
    (ht : s.turns = .resetAssert :: .resetRelease :: ts) :
    Host.Core.run Sys2Proof.core (k + 2) s =
      Host.Core.run Sys2Proof.core k (releaseReset (assertReset { s with turns := ts })) := by
  have hrelease : step (assertReset { s with turns := .resetRelease :: ts }) =
      .next (releaseReset (assertReset { s with turns := ts })) := step_resetRelease rfl
  exact (run_of_step (k + 1) (step_resetAssert ht)).trans (run_of_step k hrelease)

/-! ### Acceptance -/

/-- R24, R40: the host's write to CMD of an IDLE block is accepted. -/
theorem step_writeCmd_idle {s t : State} {v : Word} (hm : HostMoves s (.regWrite 0x08 64 v) t)
    (hz : s.hazardFault = false) (hr : s.resetLine = false) (hi : s.phase = .idle) :
    step s = .next (accept t v) := by
  rw [step_writeReg (r := .cmd) hm hz hr, writeReg_cmd_idle v ((hostMoves_phase hm).trans hi)]

/-- R42: right after acceptance STATUS reads BUSY and nothing else. -/
theorem readReg_accept_status (s : State) (v : Word) : readReg (accept s v) .status = 1#64 := rfl

end Sys2Proof.Machine

open Sys2Proof Sys2Proof.Machine Sys2Proof.Safety

/-- Settles O15: in WS the load draws a free byte, and anywhere else it takes the branch of memory. -/
theorem hostLoadDuringBusy : Obligations.HostLoadDuringBusy := by
  unfold Obligations.HostLoadDuringBusy
  intro s t a ha hz hb hm
  rw [step_hostMoves hm hz]
  obtain ⟨ts, ops, rfl⟩ := hostMoves_takenOff hm
  exact ⟨fun hw => hostLoad_draws ha hb hw, fun hw => hostLoad_returnsByte ha fun hin => hw hin.2⟩

/-- Settles O33: reset leaves the block IDLE with its operands cleared and the host's program in place, and release
lets the write in, which is accepted. -/
theorem firstCommandAfterReset : Obligations.FirstCommandAfterReset := by
  unfold Obligations.FirstCommandAfterReset
  intro s v rest ts hz hturns hhost
  have hmoves : HostMoves (releaseReset (assertReset { s with turns := .host :: ts })) (.regWrite 0x08 64 v)
      { releaseReset (assertReset { s with turns := ts }) with host := rest } := ⟨hhost, Or.inr ⟨rfl, rfl⟩⟩
  have haccept := step_writeCmd_idle hmoves hz rfl rfl
  exact ⟨_, (run_resetPulse 1 hturns).trans (run_of_step 0 haccept), rfl, rfl, rfl,
    readReg_accept_status _ v⟩

end
